-- ==== Sys2Proof/Config.lean ====
section
/-! DEFINITION. The parameters of spec/00_scope.md R10, each a named constant with its value, and the one free value of the
model. Types and operations name these constants; where one sizes a type it is written `delta% Config.x`, which Lean replaces
by the value of x, so that the types of a proof show numerals. The one parameter that is no constant is `FONT_DATA`: it is an
argument of the load (`State.loadProgram`), and its default value is `fontData` of Machine/Ops.lean (R11, R51). -/

namespace Sys2Proof.Config

/-! ## Memory and programs -/

/-- `MEM_SIZE` (R10, R45). -/
@[simp] abbrev memSize : Nat := 4096
/-- `ADDR_MAX`, the last valid memory address: `MEM_SIZE - 1` (R10). -/
@[simp] abbrev addrMax : Nat := 0xFFF
/-- `PROGRAM_BASE`, also the PC after a load (R10, R63). -/
@[simp] abbrev programBase : Nat := 0x200
/-- `MAX_ROM`, the longest program a load accepts: `MEM_SIZE - PROGRAM_BASE` (R10, R351). -/
@[simp] abbrev maxRom : Nat := 3584
/-- `INSTR_BYTES`, the bytes of an instruction (R10, R34, R90). -/
@[simp] abbrev instrBytes : Nat := 2

/-! ## Registers, stack, timers, keys -/

/-- `NUM_V`, the general registers (R10, R31). -/
@[simp] abbrev numV : Nat := 16
/-- `V_WIDTH` (R10, R31). -/
@[simp] abbrev vWidth : Nat := 8
/-- `I_WIDTH` (R10, R37). -/
@[simp] abbrev iWidth : Nat := 16
/-- `PC_WIDTH` (R10, R34). -/
@[simp] abbrev pcWidth : Nat := 16
/-- `STACK_DEPTH` (R10, R38). -/
@[simp] abbrev stackDepth : Nat := 16
/-- `STACK_ENTRY_WIDTH`: an entry holds a PC (R10, R38). -/
@[simp] abbrev stackEntryWidth : Nat := 16
/-- `TIMER_WIDTH`, of the delay and the sound timer (R10, R40). -/
@[simp] abbrev timerWidth : Nat := 8
/-- `NUM_KEYS`, the key slots (R10, R46). -/
@[simp] abbrev numKeys : Nat := 16

/-! ## Display and font -/

/-- `FB_W`, the columns of the framebuffer (R10, R43). -/
@[simp] abbrev fbW : Nat := 64
/-- `FB_H`, the rows of the framebuffer (R10, R43). -/
@[simp] abbrev fbH : Nat := 32
/-- `FONT_BASE` (R10, R51). -/
@[simp] abbrev fontBase : Nat := 0x050
/-- `FONT_END`, exclusive (R10, R51). -/
@[simp] abbrev fontEnd : Nat := 0x0A0
/-- `GLYPH_BYTES` (R10, R224). -/
@[simp] abbrev glyphBytes : Nat := 5
/-- `NUM_GLYPHS`: `(FONT_END - FONT_BASE) / GLYPH_BYTES` (R10, R51). -/
@[simp] abbrev numGlyphs : Nat := 16
/-- The size of `FONT_DATA`: `NUM_GLYPHS * GLYPH_BYTES` (R10, R51). -/
@[simp] abbrev fontSize : Nat := 80

/-! ## Batch, tick, random -/

/-- `BATCH_STEPS`, the `maxSteps` of the reference host (R10, R141). -/
@[simp] abbrev batchSteps : Nat := 32
/-- `TICK_HZ`, the host's ticks in a second; no rule depends on it (R10, R361), so nothing reads it. -/
@[simp] abbrev tickHz : Nat := 60
/-- `RNG_MIN`, the least random byte of CXNN (R10, R210). -/
@[simp] abbrev rngMin : Nat := 1
/-- `RNG_MAX`, the greatest random byte of CXNN (R10, R210). -/
@[simp] abbrev rngMax : Nat := 255
/-- How many random bytes there are: `RNG_MAX - RNG_MIN + 1` (R210). -/
@[simp] abbrev rngCount : Nat := 255

/-- The free value of CXNN: the draw that the `n`-th CXNN of a run takes when the environment has queued none
(R210, R212). It has no body: nothing relates two draws, and no proof can see a value of it. Log entry 6. -/
opaque freeDraw : Nat → Fin (delta% rngCount)

end Sys2Proof.Config
end

