-- ==== Sys2Proof/Word.lean ====
section
/-! DEFINITION. The word types of the core: every register, byte and field is unsigned (spec R13, R18, R31). -/

namespace Sys2Proof

/-- A general register, a memory byte (R31, R45). -/
abbrev Byte := BitVec (delta% Config.vWidth)

/-- The program counter, an opcode (R34, R90). -/
abbrev Word := BitVec (delta% Config.pcWidth)

/-- The NNN field: a 12-bit memory address or jump target (R18, R93). -/
abbrev Addr := BitVec 12

/-- The N field: the row count of DXYN (R18, R93). -/
abbrev Nibble := BitVec 4

/-- The number of a general register, as the X and Y fields select it (R18, R31). -/
abbrev Reg := Fin (delta% Config.numV)

/-- One draw of the random input of CXNN. The draw `d` stands for the byte `d + RNG_MIN`, so the draws are exactly the bytes
from `RNG_MIN` to `RNG_MAX` (R210). -/
abbrev Draw := Fin (delta% Config.rngCount)

/-- `FONT_DATA`, the parameter: the bytes of the 16 glyphs, glyph k from 5*k on (R11, R51). -/
abbrev Font := Vector Byte (delta% Config.fontSize)

end Sys2Proof
end

