-- ==== Sys2Proof/Syntax.lean ====
section
/-! DEFINITION. The instructions: one constructor for each of the 35 rows of spec/opcode_table.json (R2, R100). A
constructor carries every operand field of its word, the ignored ones too (R94), so that no bit of a word is lost. -/

namespace Sys2Proof

/-- The base CHIP-8 instruction set of 35 opcodes (R2). -/
inductive Instr where
  /-- 0NNN, no operation (R150). -/
  | sys (nnn : Addr)
  /-- 00E0, clear the framebuffer (R240). -/
  | cls
  /-- 00EE, return from subroutine (R152). -/
  | ret
  /-- 1NNN, jump (R155). -/
  | jp (nnn : Addr)
  /-- 2NNN, call subroutine (R157). -/
  | call (nnn : Addr)
  /-- 3XNN, skip if VX = NN (R160). -/
  | seImm (x : Reg) (nn : Byte)
  /-- 4XNN, skip if VX ≠ NN (R162). -/
  | sneImm (x : Reg) (nn : Byte)
  /-- 5XY0, skip if VX = VY (R164). -/
  | seReg (x y : Reg)
  /-- 6XNN, load immediate (R180). -/
  | ldImm (x : Reg) (nn : Byte)
  /-- 7XNN, add immediate, no carry (R182). -/
  | addImm (x : Reg) (nn : Byte)
  /-- 8XY0, register copy (R184). -/
  | ldReg (x y : Reg)
  /-- 8XY1, bitwise OR (R186). -/
  | orReg (x y : Reg)
  /-- 8XY2, bitwise AND (R188). -/
  | andReg (x y : Reg)
  /-- 8XY3, bitwise exclusive OR (R190). -/
  | xorReg (x y : Reg)
  /-- 8XY4, add with carry out (R192). -/
  | addReg (x y : Reg)
  /-- 8XY5, VX − VY with not-borrow (R195). -/
  | subReg (x y : Reg)
  /-- 8XY6, shift VX right; Y is ignored (R198, R94). -/
  | shr (x y : Reg)
  /-- 8XY7, VY − VX with not-borrow (R201). -/
  | subnReg (x y : Reg)
  /-- 8XYE, shift VX left; Y is ignored (R204, R94). -/
  | shl (x y : Reg)
  /-- 9XY0, skip if VX ≠ VY (R166). -/
  | sneReg (x y : Reg)
  /-- ANNN, load the index register (R220). -/
  | ldI (nnn : Addr)
  /-- BNNN, jump to NNN + V0 (R176). -/
  | jpV0 (nnn : Addr)
  /-- CXNN, random byte masked by NN (R210). -/
  | rnd (x : Reg) (nn : Byte)
  /-- DXYN, draw a sprite of N rows (R243). -/
  | drw (x y : Reg) (n : Nibble)
  /-- EX9E, skip if key VX is pressed (R260). -/
  | skp (x : Reg)
  /-- EXA1, skip if key VX is not pressed (R262). -/
  | sknp (x : Reg)
  /-- FX07, read the delay timer (R264). -/
  | ldVxDt (x : Reg)
  /-- FX0A, wait for a key press (R266). -/
  | ldVxK (x : Reg)
  /-- FX15, set the delay timer (R270). -/
  | ldDtVx (x : Reg)
  /-- FX18, set the sound timer (R272). -/
  | ldStVx (x : Reg)
  /-- FX1E, add VX to the index register (R222). -/
  | addIVx (x : Reg)
  /-- FX29, point the index register at the glyph of VX (R224). -/
  | ldFVx (x : Reg)
  /-- FX33, store the decimal digits of VX (R226). -/
  | ldBVx (x : Reg)
  /-- FX55, store V0 to VX (R229). -/
  | ldMemVx (x : Reg)
  /-- FX65, load V0 to VX (R232). -/
  | ldVxMem (x : Reg)
deriving DecidableEq, Repr

end Sys2Proof
end

