-- ==== Sys2Proof/Decode.lean ====
section
/-! DEFINITION. Decoding an opcode (spec/30_encoding.md R90-R96), the encoder written from the same formats (R92,
R101), and the match and mask of each row of spec/opcode_table.json. -/

namespace Sys2Proof

/-- What the decoder answers: an instruction, or a rejection by name. -/
inductive Decoded where
  /-- The word is this instruction. -/
  | instr (i : Instr)
  /-- The word `op` decodes to `UNIMPLEMENTED` (R95, R98). -/
  | unimplemented (op : Word)
  /-- Fewer than the two bytes of an instruction were given (R90). -/
  | truncated
deriving DecidableEq, Repr

/-! ## The fields of an opcode (R18, R91) -/

/-- The family, `op[15:12]`. -/
def family (op : Word) : Nat := (op.extractLsb' 12 4).toNat
/-- X, `op[11:8]`. -/
def fieldX (op : Word) : Reg := (op.extractLsb' 8 4).toFin
/-- Y, `op[7:4]`. -/
def fieldY (op : Word) : Reg := (op.extractLsb' 4 4).toFin
/-- N, `op[3:0]`. -/
def fieldN (op : Word) : Nibble := op.extractLsb' 0 4
/-- NN, `op[7:0]`. -/
def fieldNN (op : Word) : Byte := op.extractLsb' 0 8
/-- NNN, `op[11:0]`. -/
def fieldNNN (op : Word) : Addr := op.extractLsb' 0 12

/-! ## Decoding -/

/-- Family 0x0: two exact words, every other word is SYS (R95, R99). -/
def decode0 (op : Word) : Decoded :=
  if op = 0x00E0#16 then .instr .cls
  else if op = 0x00EE#16 then .instr .ret
  else .instr (.sys (fieldNNN op))

/-- Families 0x5 and 0x9: one instruction, with sub-nibble 0 (R95). -/
def decodeN0 (op : Word) (i : Instr) : Decoded :=
  if fieldN op = 0#4 then .instr i else .unimplemented op

/-- Family 0x8, by the sub-nibble N (R95). -/
def decode8 (op : Word) : Decoded :=
  match (fieldN op).toNat with
  | 0x0 => .instr (.ldReg (fieldX op) (fieldY op))
  | 0x1 => .instr (.orReg (fieldX op) (fieldY op))
  | 0x2 => .instr (.andReg (fieldX op) (fieldY op))
  | 0x3 => .instr (.xorReg (fieldX op) (fieldY op))
  | 0x4 => .instr (.addReg (fieldX op) (fieldY op))
  | 0x5 => .instr (.subReg (fieldX op) (fieldY op))
  | 0x6 => .instr (.shr (fieldX op) (fieldY op))
  | 0x7 => .instr (.subnReg (fieldX op) (fieldY op))
  | 0xE => .instr (.shl (fieldX op) (fieldY op))
  | _ => .unimplemented op

/-- Family 0xE, by the low byte NN (R95). -/
def decodeE (op : Word) : Decoded :=
  match (fieldNN op).toNat with
  | 0x9E => .instr (.skp (fieldX op))
  | 0xA1 => .instr (.sknp (fieldX op))
  | _ => .unimplemented op

/-- Family 0xF, by the low byte NN (R95). -/
def decodeF (op : Word) : Decoded :=
  match (fieldNN op).toNat with
  | 0x07 => .instr (.ldVxDt (fieldX op))
  | 0x0A => .instr (.ldVxK (fieldX op))
  | 0x15 => .instr (.ldDtVx (fieldX op))
  | 0x18 => .instr (.ldStVx (fieldX op))
  | 0x1E => .instr (.addIVx (fieldX op))
  | 0x29 => .instr (.ldFVx (fieldX op))
  | 0x33 => .instr (.ldBVx (fieldX op))
  | 0x55 => .instr (.ldMemVx (fieldX op))
  | 0x65 => .instr (.ldVxMem (fieldX op))
  | _ => .unimplemented op

/-- Decoding an opcode, total, reading nothing but `op` (R95). -/
def decode (op : Word) : Decoded :=
  match family op with
  | 0x0 => decode0 op
  | 0x1 => .instr (.jp (fieldNNN op))
  | 0x2 => .instr (.call (fieldNNN op))
  | 0x3 => .instr (.seImm (fieldX op) (fieldNN op))
  | 0x4 => .instr (.sneImm (fieldX op) (fieldNN op))
  | 0x5 => decodeN0 op (.seReg (fieldX op) (fieldY op))
  | 0x6 => .instr (.ldImm (fieldX op) (fieldNN op))
  | 0x7 => .instr (.addImm (fieldX op) (fieldNN op))
  | 0x8 => decode8 op
  | 0x9 => decodeN0 op (.sneReg (fieldX op) (fieldY op))
  | 0xA => .instr (.ldI (fieldNNN op))
  | 0xB => .instr (.jpV0 (fieldNNN op))
  | 0xC => .instr (.rnd (fieldX op) (fieldNN op))
  | 0xD => .instr (.drw (fieldX op) (fieldY op) (fieldN op))
  | 0xE => decodeE op
  | 0xF => decodeF op
  | _ => .unimplemented op

/-- The opcode of two bytes, the first the high half (R65). -/
def opcodeOf (hi lo : Byte) : Word := hi ++ lo

/-- Decoding the bytes in memory order: the first two bytes are the instruction (R65, R90). -/
def decodeBytes : List Byte → Decoded
  | hi :: lo :: _ => decode (opcodeOf hi lo)
  | _ => .truncated

/-! ## Encoding -/

/-- Format `NNN`: family and 12-bit address (R92). -/
def wordNNN (f : BitVec 4) (nnn : Addr) : Word := f ++ nnn
/-- Formats `XNN` and `XSS`: family, register, 8-bit immediate or sub-opcode (R92). -/
def wordXNN (f : BitVec 4) (x : Reg) (nn : Byte) : Word := f ++ BitVec.ofFin (w := 4) x ++ nn
/-- Formats `XYS` and `XYN`: family, two registers, 4-bit sub-opcode or count (R92). -/
def wordXYN (f : BitVec 4) (x y : Reg) (n : Nibble) : Word :=
  f ++ BitVec.ofFin (w := 4) x ++ BitVec.ofFin (w := 4) y ++ n

/-- The opcode of an instruction (R92, R101). -/
def encode : Instr → Word
  | .sys nnn => wordNNN 0x0#4 nnn
  | .cls => 0x00E0#16
  | .ret => 0x00EE#16
  | .jp nnn => wordNNN 0x1#4 nnn
  | .call nnn => wordNNN 0x2#4 nnn
  | .seImm x nn => wordXNN 0x3#4 x nn
  | .sneImm x nn => wordXNN 0x4#4 x nn
  | .seReg x y => wordXYN 0x5#4 x y 0x0#4
  | .ldImm x nn => wordXNN 0x6#4 x nn
  | .addImm x nn => wordXNN 0x7#4 x nn
  | .ldReg x y => wordXYN 0x8#4 x y 0x0#4
  | .orReg x y => wordXYN 0x8#4 x y 0x1#4
  | .andReg x y => wordXYN 0x8#4 x y 0x2#4
  | .xorReg x y => wordXYN 0x8#4 x y 0x3#4
  | .addReg x y => wordXYN 0x8#4 x y 0x4#4
  | .subReg x y => wordXYN 0x8#4 x y 0x5#4
  | .shr x y => wordXYN 0x8#4 x y 0x6#4
  | .subnReg x y => wordXYN 0x8#4 x y 0x7#4
  | .shl x y => wordXYN 0x8#4 x y 0xE#4
  | .sneReg x y => wordXYN 0x9#4 x y 0x0#4
  | .ldI nnn => wordNNN 0xA#4 nnn
  | .jpV0 nnn => wordNNN 0xB#4 nnn
  | .rnd x nn => wordXNN 0xC#4 x nn
  | .drw x y n => wordXYN 0xD#4 x y n
  | .skp x => wordXNN 0xE#4 x 0x9E#8
  | .sknp x => wordXNN 0xE#4 x 0xA1#8
  | .ldVxDt x => wordXNN 0xF#4 x 0x07#8
  | .ldVxK x => wordXNN 0xF#4 x 0x0A#8
  | .ldDtVx x => wordXNN 0xF#4 x 0x15#8
  | .ldStVx x => wordXNN 0xF#4 x 0x18#8
  | .addIVx x => wordXNN 0xF#4 x 0x1E#8
  | .ldFVx x => wordXNN 0xF#4 x 0x29#8
  | .ldBVx x => wordXNN 0xF#4 x 0x33#8
  | .ldMemVx x => wordXNN 0xF#4 x 0x55#8
  | .ldVxMem x => wordXNN 0xF#4 x 0x65#8

/-- The bytes of an instruction in memory order, high half first (R65). -/
def encodeBytes (i : Instr) : List Byte := [(encode i).extractLsb' 8 8, (encode i).extractLsb' 0 8]

/-! ## The rows of spec/opcode_table.json -/

/-- The `match` column of the instruction's row. -/
def tableMatch : Instr → Word
  | .sys _ => 0x0000 | .cls => 0x00E0 | .ret => 0x00EE | .jp _ => 0x1000 | .call _ => 0x2000
  | .seImm _ _ => 0x3000 | .sneImm _ _ => 0x4000 | .seReg _ _ => 0x5000 | .ldImm _ _ => 0x6000 | .addImm _ _ => 0x7000
  | .ldReg _ _ => 0x8000 | .orReg _ _ => 0x8001 | .andReg _ _ => 0x8002 | .xorReg _ _ => 0x8003
  | .addReg _ _ => 0x8004 | .subReg _ _ => 0x8005 | .shr _ _ => 0x8006 | .subnReg _ _ => 0x8007 | .shl _ _ => 0x800E
  | .sneReg _ _ => 0x9000 | .ldI _ => 0xA000 | .jpV0 _ => 0xB000 | .rnd _ _ => 0xC000 | .drw _ _ _ => 0xD000
  | .skp _ => 0xE09E | .sknp _ => 0xE0A1 | .ldVxDt _ => 0xF007 | .ldVxK _ => 0xF00A | .ldDtVx _ => 0xF015
  | .ldStVx _ => 0xF018 | .addIVx _ => 0xF01E | .ldFVx _ => 0xF029 | .ldBVx _ => 0xF033 | .ldMemVx _ => 0xF055
  | .ldVxMem _ => 0xF065

/-- The `mask` column of the instruction's row: the bits the row fixes. -/
def tableMask : Instr → Word
  | .cls | .ret => 0xFFFF
  | .sys _ | .jp _ | .call _ | .seImm _ _ | .sneImm _ _ | .ldImm _ _ | .addImm _ _ | .ldI _ | .jpV0 _ | .rnd _ _
  | .drw _ _ _ => 0xF000
  | .seReg _ _ | .ldReg _ _ | .orReg _ _ | .andReg _ _ | .xorReg _ _ | .addReg _ _ | .subReg _ _ | .shr _ _
  | .subnReg _ _ | .shl _ _ | .sneReg _ _ => 0xF00F
  | .skp _ | .sknp _ | .ldVxDt _ | .ldVxK _ | .ldDtVx _ | .ldStVx _ | .addIVx _ | .ldFVx _ | .ldBVx _ | .ldMemVx _
  | .ldVxMem _ => 0xF0FF

/-! ## The table's words, as the host numbers their bits -/

/-- The 16 bits of a table word, the bits from `nbits` up cleared. -/
def tableWord (nbits w : Nat) : Word := BitVec.ofNat 16 (w % 2 ^ nbits)

/-- The bytes of a table word as memory holds them: the high half at the lower address (R65). -/
def tableBytes (nbits w : Nat) : List Byte :=
  [(tableWord nbits w).extractLsb' 8 8, (tableWord nbits w).extractLsb' 0 8]

/-- The instruction the decoder reads from a table word. -/
def decodeTableWord (nbits w : Nat) : Option Instr :=
  match decodeBytes (tableBytes nbits w) with
  | .instr i => some i
  | .unimplemented _ => none
  | .truncated => none

end Sys2Proof
end

