-- ==== Sys2Proof/Machine/State.lean ====
section
/-! DEFINITION. The architectural state of spec/10_state.md R30, the environment's inputs to a step (R46, R130, R210),
and the state after reset. State is plain data. -/

namespace Sys2Proof.Machine

/-- Memory: the bytes that differ from what an unlisted address reads as (`Memory.resetByte`), by rising address. -/
abbrev Memory := List Host.Cell

/-- The 64 x 32 grid of one-bit pixels as 32 rows, row 0 on top; bit `x` of a row is the pixel at column `x`, column 0
leftmost (R43). Log entry 4. -/
abbrev Framebuffer := Vector (BitVec (delta% Config.fbW)) (delta% Config.fbH)

/-- The run state (R47). -/
inductive RunState where
  /-- Before the first load. -/
  | noProgram
  /-- After a load. -/
  | running
  /-- After a fault; only a load leaves it. -/
  | halted
deriving DecidableEq, Repr

/-- The fault codes (R300). -/
inductive FaultCode where
  /-- 0: no fault since the last load. -/
  | none
  /-- 1: the fetched word is no instruction. -/
  | unimplementedOpcode
  /-- 2: return with an empty stack. -/
  | stackUnderflow
  /-- 3: call with a full stack. -/
  | stackOverflow
  /-- 4: a data byte address above 0xFFF. -/
  | memOutOfRange
  /-- 5: a fetch from a PC above 0xFFE. -/
  | fetchOutOfRange
  /-- 6: a key index above 0x0F. -/
  | keyIndexOutOfRange
deriving DecidableEq, Repr

/-- The fault record of the last halt (R48); `opcode` is `none` when the fault was a fetch fault. -/
structure FaultRecord where
  code : FaultCode
  pc : Word
  opcode : Option Word
deriving DecidableEq, Repr

/-- The whole state. All but the last three fields are the record of R30. -/
structure State where
  /-- Memory (R45). -/
  mem : Memory
  /-- The general registers V0 to VF (R31). -/
  v : Vector (BitVec (delta% Config.vWidth)) (delta% Config.numV)
  /-- The index register I (R37). -/
  i : BitVec (delta% Config.iWidth)
  /-- The program counter PC (R34). -/
  pc : BitVec (delta% Config.pcWidth)
  /-- The call stack entries (R38). -/
  stack : Vector (BitVec (delta% Config.stackEntryWidth)) (delta% Config.stackDepth)
  /-- SP, the number of entries on the call stack, 0 to 16 (R39). -/
  sp : Fin ((delta% Config.stackDepth) + 1)
  /-- The delay timer DT (R40). -/
  dt : BitVec (delta% Config.timerWidth)
  /-- The sound timer ST (R40). -/
  st : BitVec (delta% Config.timerWidth)
  /-- The framebuffer (R43). -/
  fb : Framebuffer
  /-- The dirty flag (R44). -/
  dirty : Bool
  /-- The run state (R47). -/
  run : RunState
  /-- The fault record (R48). -/
  fault : FaultRecord
  /-- The key slots, the host's input; no step writes them (R46). Log entry 5. -/
  keys : Vector Bool (delta% Config.numKeys)
  /-- The model's own: random draws the environment has supplied and no CXNN has used, the next one first (R130, R210).
  Log entry 6. -/
  draws : List Draw
  /-- The model's own: how many CXNN have run; it indexes the free value `Config.freeDraw`. Log entry 6. -/
  drawCount : Nat
deriving DecidableEq, Repr

/-- The reasons a step stops with a fault of the model: there are none. Every fault of the core is an effect the spec
describes (R302), so the step that raises it answers the next state, the halted one. With no constructor, nobody can
raise one. -/
inductive Fault where
deriving DecidableEq, Repr

/-- The reasons a step is refused. -/
inductive Refusal where
  /-- Raised only by an arm of `exec` whose instruction has no meaning yet. Safe: the model says nothing about the
  instruction. No arm raises it now. -/
  | notModelled (mnemonic : String)
deriving DecidableEq, Repr

/-- What an instruction or a step answers. -/
abbrev Answer := Host.Outcome State Fault Refusal

/-- The state right after reset. `loadProgram` is the core's reset (R350) and this is the load of the empty program with the
default font (log entry 2), every field at its load value of R52. The stack entries, `fault.pc`, `fault.opcode`, the keys and
the two draw fields are the model's choices (log entries 3, 5, 6). -/
def State.reset : State where
  mem := []
  v := Vector.replicate _ 0x00
  i := 0x0000
  pc := BitVec.ofNat _ Config.programBase
  stack := Vector.replicate _ 0x0000
  sp := 0
  dt := 0x00
  st := 0x00
  fb := Vector.replicate _ 0
  dirty := true
  run := .running
  fault := { code := .none, pc := 0x0000, opcode := Option.none }
  keys := Vector.replicate _ false
  draws := []
  drawCount := 0

end Sys2Proof.Machine
end

