-- ==== Sys2Proof/Machine/Ops.lean ====
section
/-! DEFINITION. The named operations over memory, registers, program counter, stack, framebuffer, keys and draws; taking
a fault (R302), and beside it the load that alone leaves the halted state (R306, R350). -/

namespace Sys2Proof.Machine

/-! ## Memory -/

/-- The bytes of the conventional font, glyph by glyph (R51). -/
def fontBytes : List Byte :=
  [0xF0, 0x90, 0x90, 0x90, 0xF0] ++ [0x20, 0x60, 0x20, 0x20, 0x70] ++ [0xF0, 0x10, 0xF0, 0x80, 0xF0] ++
  [0xF0, 0x10, 0xF0, 0x10, 0xF0] ++ [0x90, 0x90, 0xF0, 0x10, 0x10] ++ [0xF0, 0x80, 0xF0, 0x10, 0xF0] ++
  [0xF0, 0x80, 0xF0, 0x90, 0xF0] ++ [0xF0, 0x10, 0x20, 0x40, 0x40] ++ [0xF0, 0x90, 0xF0, 0x90, 0xF0] ++
  [0xF0, 0x90, 0xF0, 0x10, 0xF0] ++ [0xF0, 0x90, 0xF0, 0x90, 0x90] ++ [0xE0, 0x90, 0xE0, 0x90, 0xE0] ++
  [0xF0, 0x80, 0x80, 0x80, 0xF0] ++ [0xE0, 0x90, 0x90, 0x90, 0xE0] ++ [0xF0, 0x80, 0xF0, 0x80, 0xF0] ++
  [0xF0, 0x80, 0xF0, 0x80, 0x80]

/-- The default of the parameter `FONT_DATA` (R11, R51). PRESUMED: the conventional font, which the spec gives as the default
from general knowledge. No operation but the representation of memory depends on it: every load may be given another font.
Log entry 2. -/
def fontData : Font := ⟨⟨fontBytes⟩, rfl⟩

/-- What an unlisted address reads as: the contents that a load of the empty program with the default font leaves (R62). A
load with another font lists the font bytes that differ. -/
def Memory.resetByte (a : Nat) : Byte :=
  if Config.fontBase ≤ a ∧ a < Config.fontEnd then fontBytes.getD (a - Config.fontBase) 0x00 else 0x00

/-- The canonical form: addresses strictly rising and inside memory, no entry equal to what its address reads as
unlisted. -/
def Memory.wf (m : Memory) : Bool :=
  decide (m.Pairwise fun c d => c.1 < d.1) &&
    m.all fun c => decide (c.1 < Config.memSize) && c.2 != Memory.resetByte c.1

/-- `MemRead(a, 1)` (R15). -/
def Memory.read : Memory → Nat → Byte
  | [], a => Memory.resetByte a
  | c :: m, a => if c.1 = a then c.2 else Memory.read m a

/-- Put the byte `b` at address `a` into a memory that does not list `a`, at its place in the order. -/
def Memory.insertCell (a : Nat) (b : Byte) : Memory → Memory
  | [] => if b = Memory.resetByte a then [] else [(a, b)]
  | c :: m =>
    if c.1 < a then c :: Memory.insertCell a b m
    else if b = Memory.resetByte a then c :: m else (a, b) :: c :: m

/-- `MemWrite(a, 1, b)` (R15). -/
def Memory.write (m : Memory) (a : Nat) (b : Byte) : Memory :=
  Memory.insertCell a b (m.filter fun c => c.1 != a)

/-- Store bytes at rising addresses from `a` (R66). -/
def Memory.writeBytes (m : Memory) (a : Nat) : List Byte → Memory
  | [] => m
  | b :: bs => Memory.writeBytes (Memory.write m a b) (a + 1) bs

/-- `MemCheck(a, n)` passes: no byte of `a .. a+n-1` lies above 0xFFF; n = 0 always passes (R67). -/
def memCheck (a n : Nat) : Bool := n == 0 || decide (a + n - 1 ≤ Config.addrMax)

/-! ## Registers and program counter -/

/-- `V[x]` (R14). -/
def State.reg (s : State) (x : Reg) : Byte := s.v[x]

/-- `V[x] <- b` (R14). -/
def State.setReg (s : State) (x : Reg) (b : Byte) : State := { s with v := s.v.set x b }

/-- The number of VF, the flag register (R32). -/
def vf : Reg := 15

/-- `PC <- w`. -/
def State.jump (s : State) (w : Word) : State := { s with pc := w }

/-- The bytes of an instruction, as PC advances by them (R34). -/
@[simp] abbrev instrStep : Word := BitVec.ofNat _ (delta% Config.instrBytes)

/-- `PC <- PC + 2`, the advance of every handler that does not set PC itself (R125). -/
def State.advance (s : State) : State := s.jump (s.pc + instrStep)

/-- The advance of a skip: 4 when its condition holds, 2 otherwise (R125, R127). -/
def State.skipWhen (s : State) (c : Bool) : State := s.jump (if c then s.pc + 2 * instrStep else s.pc + instrStep)

/-! ## Call stack (R39) -/

/-- The top entry `stack[SP-1]`, for SP > 0. -/
def State.top (s : State) : Word := s.stack[s.sp.val - 1]

/-- A pop: `SP <- SP - 1`, for SP > 0. -/
def State.pop (s : State) : State := { s with sp := ⟨s.sp.val - 1, by omega⟩ }

/-- A push: `stack[SP] <- w; SP <- SP + 1`, for SP < 16. -/
def State.push (s : State) (w : Word) : State :=
  { s with stack := s.stack.setIfInBounds s.sp.val w, sp := ⟨min (s.sp.val + 1) (delta% Config.stackDepth), by omega⟩ }

/-! ## Framebuffer (R43) -/

/-- `fb[x][y]`; false off the grid. -/
def pixel (fb : Framebuffer) (x y : Nat) : Bool := if h : y < (delta% Config.fbH) then fb[y].getLsbD x else false

/-- `fb[x][y] <- fb[x][y] ^ 1`; nothing off the grid. -/
def flipPixel (fb : Framebuffer) (x y : Nat) : Framebuffer :=
  if h : y < (delta% Config.fbH) then fb.set y (fb[y] ^^^ BitVec.twoPow _ x) else fb

/-- Every pixel unset. -/
def blankScreen : Framebuffer := Vector.replicate _ 0

/-! ## Keys and draws -/

/-- `key[k]` of a byte index: `none` when the index is above 0x0F (R261). -/
def State.keyAt (s : State) (k : Byte) : Option Bool := s.keys[k.toNat]?

/-- The least pressed key index, if some key is pressed (R266, R268). -/
def State.leastKey (s : State) : Option Nat := s.keys.toList.findIdx? id

/-- The byte a draw stands for, `RNG_MIN` to `RNG_MAX` (R210). -/
def drawByte (d : Draw) : Byte := BitVec.ofNat _ (d.val + Config.rngMin)

/-- The draw the next CXNN gets: the environment's, or the free value when none is queued (R210). -/
def State.nextDraw (s : State) : Draw := s.draws.headD (Config.freeDraw s.drawCount)

/-- The next CXNN has used its draw: no later CXNN gets it again (R212). -/
def State.useDraw (s : State) : State := { s with draws := s.draws.tail, drawCount := s.drawCount + 1 }

/-! ## Faults and the load -/

/-- Fault entry `fault(c, p, o)` with `p` the PC of the faulting step: halt and record, and change nothing else (R302). -/
def State.takeFault (s : State) (c : FaultCode) (op : Option Word) : State :=
  { s with run := .halted, fault := { code := c, pc := s.pc, opcode := op } }

/-- `raise` inside the handler of the instruction `i`, whose opcode is the fetched one (R16, R130). -/
def raise (c : FaultCode) (i : Instr) (s : State) : Answer := .next (s.takeFault c (some (encode i)))

/-- The answer of `loadProgram` (R350, R351). -/
inductive LoadResult where
  | loaded
  | rejected
deriving DecidableEq, Repr

/-- Memory after a load: the font, the program, and 0x00 elsewhere (R350). -/
def loadedMemory (font : Font) (bytes : List Byte) : Memory :=
  Memory.writeBytes (Memory.writeBytes [] Config.fontBase font.toList) Config.programBase bytes

/-- `loadProgram(bytes)`, the core's reset: the one way out of the halted state (R350-R353). `FONT_DATA` is the argument
`font`, by default the conventional font (R11). The environment's fields are not touched. -/
def State.loadProgram (s : State) (bytes : List Byte) (font : Font := fontData) : State × LoadResult :=
  if bytes.length > Config.maxRom then (s, .rejected)
  else
    ({ State.reset with
        mem := loadedMemory font bytes
        keys := s.keys
        draws := s.draws
        drawCount := s.drawCount }, .loaded)

end Sys2Proof.Machine
end

