-- ==== Sys2Proof/Machine/Operands.lean ====
section
/-! DEFINITION. The operand forms: a register VX or VY is `State.reg`, an immediate NN is itself, and the forms below
(R93, R218, R224, R226). Every field is zero-extended; nothing is signed (R13). -/

namespace Sys2Proof.Machine

/-- NNN as a 16-bit address or target, zero-extended (R93). -/
def addrOperand (nnn : Addr) : Word := nnn.setWidth _

/-- A register's byte zero-extended to 16 bits (R13). -/
def zext (b : Byte) : Word := b.setWidth _

/-- The one data addressing mode: the address `I + k`, an exact integer (R218). -/
def State.dataAddr (s : State) (k : Nat) : Nat := s.i.toNat + k

/-- The address of the glyph of a byte, the byte not reduced to a nibble (R224, R225). -/
def glyphAddr (b : Byte) : Word := BitVec.ofNat _ (Config.fontBase + Config.glyphBytes * b.toNat)

/-- The hundreds, tens and ones digits of a byte (R226). -/
def bcdDigits (b : Byte) : List Byte :=
  [BitVec.ofNat 8 (b.toNat / 100), BitVec.ofNat 8 (b.toNat / 10 % 10), BitVec.ofNat 8 (b.toNat % 10)]

/-- The registers V0 to VX, in order (R229). -/
def State.regsUpTo (s : State) (x : Reg) : List Byte := s.v.toList.take (x.val + 1)

/-- `for k in 0 .. n-1: V[k] <- MemRead(a + k, 1)` (R232). -/
def loadRegs (m : Memory) (a : Nat) : Nat → Vector Byte (delta% Config.numV) → Vector Byte (delta% Config.numV)
  | 0, v => v
  | k + 1, v => (loadRegs m a k v).setIfInBounds k (Memory.read m (a + k))

end Sys2Proof.Machine
end

