-- ==== Sys2Proof/Machine/Flags.lean ====
section
/-! DEFINITION. The flags an instruction writes to VF (R32), each from exact integers (R13), and the order of the two
writes (R179). -/

namespace Sys2Proof.Machine

/-- A flag as VF holds it. -/
def flagByte (f : Bool) : Byte := if f then 1 else 0

/-- Carry out of bit 7 of a + b (R192). -/
def carryOut (a b : Byte) : Bool := decide (a.toNat + b.toNat > 255)

/-- a − b needs no borrow (R195, R201). -/
def notBorrow (a b : Byte) : Bool := !decide (a.toNat < b.toNat)

/-- (a + b) mod 256 (R192). -/
def sumByte (a b : Byte) : Byte := BitVec.ofNat 8 (a.toNat + b.toNat)

/-- (a − b) mod 256 (R195, R196). -/
def diffByte (a b : Byte) : Byte := BitVec.ofInt 8 ((a.toNat : Int) - (b.toNat : Int))

/-- Bit 0, which a right shift moves out (R198). -/
def lowBit (a : Byte) : Bool := a.getLsbD 0

/-- Bit 7, which a left shift moves out (R204). -/
def highBit (a : Byte) : Bool := a.getLsbD 7

/-- Write the flag to VF first and the result to VX second: with X = F the result stays and the flag is lost (R179). -/
def State.setFlagged (s : State) (f : Bool) (x : Reg) (b : Byte) : State := (s.setReg vf (flagByte f)).setReg x b

end Sys2Proof.Machine
end

