-- ==== Sys2Proof/Machine/Alu.lean ====
section
/-! DEFINITION. Register loads, arithmetic, logic, shifts and random of spec/42_alu.md. Every operand is read from the
state before the instruction (R17). -/

namespace Sys2Proof.Machine

/-- 6XNN (R180). -/
def execLdImm (x : Reg) (nn : Byte) (s : State) : Answer := .next (s.setReg x nn).advance

/-- 7XNN (R182): VF is not written. -/
def execAddImm (x : Reg) (nn : Byte) (s : State) : Answer := .next (s.setReg x (sumByte (s.reg x) nn)).advance

/-- 8XY0 (R184). -/
def execLdReg (x y : Reg) (s : State) : Answer := .next (s.setReg x (s.reg y)).advance

/-- 8XY1 (R186): VF is not written (R187). -/
def execOrReg (x y : Reg) (s : State) : Answer := .next (s.setReg x (s.reg x ||| s.reg y)).advance

/-- 8XY2 (R188): VF is not written (R187). -/
def execAndReg (x y : Reg) (s : State) : Answer := .next (s.setReg x (s.reg x &&& s.reg y)).advance

/-- 8XY3 (R190): VF is not written (R187). -/
def execXorReg (x y : Reg) (s : State) : Answer := .next (s.setReg x (s.reg x ^^^ s.reg y)).advance

/-- 8XY4 (R192-R194). -/
def execAddReg (x y : Reg) (s : State) : Answer :=
  .next (s.setFlagged (carryOut (s.reg x) (s.reg y)) x (sumByte (s.reg x) (s.reg y))).advance

/-- 8XY5 (R195-R197). -/
def execSubReg (x y : Reg) (s : State) : Answer :=
  .next (s.setFlagged (notBorrow (s.reg x) (s.reg y)) x (diffByte (s.reg x) (s.reg y))).advance

/-- 8XY6 (R198-R200): Y is ignored. -/
def execShr (x _y : Reg) (s : State) : Answer := .next (s.setFlagged (lowBit (s.reg x)) x (s.reg x >>> 1)).advance

/-- 8XY7 (R201-R203). -/
def execSubnReg (x y : Reg) (s : State) : Answer :=
  .next (s.setFlagged (notBorrow (s.reg y) (s.reg x)) x (diffByte (s.reg y) (s.reg x))).advance

/-- 8XYE (R204-R206): Y is ignored. -/
def execShl (x _y : Reg) (s : State) : Answer := .next (s.setFlagged (highBit (s.reg x)) x (s.reg x <<< 1)).advance

/-- CXNN (R210-R212): one fresh draw in [1, 255]. -/
def execRnd (x : Reg) (nn : Byte) (s : State) : Answer :=
  .next (s.useDraw.setReg x (nn &&& drawByte s.nextDraw)).advance

end Sys2Proof.Machine
end

