-- ==== Sys2Proof/Machine/ControlFlow.lean ====
section
/-! DEFINITION. The no-op, call, return, jumps and skips of spec/41_control_flow.md. -/

namespace Sys2Proof.Machine

/-- 0NNN (R150, R151); NNN is ignored (R94). -/
def execSys (_nnn : Addr) (s : State) : Answer := .next s.advance

/-- 00EE (R152): an empty stack faults (R153). The popped address is the call's own, so 2 is added (R154). -/
def execRet (s : State) : Answer :=
  if s.sp.val = 0 then raise .stackUnderflow .ret s else .next (s.pop.jump (s.top + instrStep))

/-- 1NNN (R155). -/
def execJp (nnn : Addr) (s : State) : Answer := .next (s.jump (addrOperand nnn))

/-- 2NNN (R157): pushes its own address; a full stack faults (R158). -/
def execCall (nnn : Addr) (s : State) : Answer :=
  if s.sp.val = Config.stackDepth then raise .stackOverflow (.call nnn) s
  else .next ((s.push s.pc).jump (addrOperand nnn))

/-- 3XNN (R160). -/
def execSeImm (x : Reg) (nn : Byte) (s : State) : Answer := .next (s.skipWhen (s.reg x == nn))

/-- 4XNN (R162). -/
def execSneImm (x : Reg) (nn : Byte) (s : State) : Answer := .next (s.skipWhen (s.reg x != nn))

/-- 5XY0 (R164). -/
def execSeReg (x y : Reg) (s : State) : Answer := .next (s.skipWhen (s.reg x == s.reg y))

/-- 9XY0 (R166). -/
def execSneReg (x y : Reg) (s : State) : Answer := .next (s.skipWhen (s.reg x != s.reg y))

/-- BNNN (R176): always V0, and the sum is not reduced to 12 bits (R177). -/
def execJpV0 (nnn : Addr) (s : State) : Answer := .next (s.jump (addrOperand nnn + zext (s.reg 0)))

end Sys2Proof.Machine
end

