-- ==== Sys2Proof/Machine/Display.lean ====
section
/-! DEFINITION. Clear and sprite draw of spec/44_display.md. -/

namespace Sys2Proof.Machine

/-- 00E0 (R240, R241): VF is not written. -/
def execCls (s : State) : Answer := .next ({ s with fb := blankScreen, dirty := true } : State).advance

/-- A set sprite bit at column `px`, row `py`: invert the pixel and note a collision, unless it lies off the grid
(R245, R246). The pair is the framebuffer and the collision so far. -/
def plot (d : Framebuffer × Bool) (px py : Nat) : Framebuffer × Bool :=
  if px < Config.fbW ∧ py < Config.fbH then (flipPixel d.1 px py, d.2 || pixel d.1 px py) else d

/-- One sprite byte on row `py` from column `x0`, most significant bit leftmost (R244). -/
def drawRow (row : Byte) (x0 py : Nat) (d : Framebuffer × Bool) : Framebuffer × Bool :=
  (List.range 8).foldl (fun d c => if row.getLsbD (7 - c) then plot d (x0 + c) py else d) d

/-- The sprite of `n` bytes at address `a`, its top left pixel at (x0, y0); no coordinate is reduced (R243, R246). -/
def drawSprite (m : Memory) (a x0 y0 n : Nat) (d : Framebuffer × Bool) : Framebuffer × Bool :=
  (List.range n).foldl (fun d r => drawRow (Memory.read m (a + r)) x0 (y0 + r) d) d

/-- DXYN (R243-R250): the coordinates are read before VF is written. -/
def execDrw (x y : Reg) (n : Nibble) (s : State) : Answer :=
  if memCheck (s.dataAddr 0) n.toNat then
    let d := drawSprite s.mem (s.dataAddr 0) (s.reg x).toNat (s.reg y).toNat n.toNat (s.fb, false)
    .next (({ s with fb := d.1, dirty := true } : State).setReg vf (flagByte d.2)).advance
  else raise .memOutOfRange (.drw x y n) s

end Sys2Proof.Machine
end

