-- ==== Sys2Proof/Machine/IndexMemory.lean ====
section
/-! DEFINITION. The index register and memory transfer of spec/43_index_memory.md. The whole range is checked before the
first access, and no access changes I (R67, R218). -/

namespace Sys2Proof.Machine

/-- ANNN (R220). -/
def execLdI (nnn : Addr) (s : State) : Answer := .next ({ s with i := addrOperand nnn } : State).advance

/-- FX1E (R222): modulo 2^16 only, and VF is not written (R223). -/
def execAddIVx (x : Reg) (s : State) : Answer := .next ({ s with i := s.i + zext (s.reg x) } : State).advance

/-- FX29 (R224, R225). -/
def execLdFVx (x : Reg) (s : State) : Answer := .next ({ s with i := glyphAddr (s.reg x) } : State).advance

/-- FX33 (R226-R228). -/
def execLdBVx (x : Reg) (s : State) : Answer :=
  if memCheck (s.dataAddr 0) 3 then
    .next ({ s with mem := Memory.writeBytes s.mem (s.dataAddr 0) (bcdDigits (s.reg x)) } : State).advance
  else raise .memOutOfRange (.ldBVx x) s

/-- FX55 (R229-R231). -/
def execLdMemVx (x : Reg) (s : State) : Answer :=
  if memCheck (s.dataAddr 0) (x.val + 1) then
    .next ({ s with mem := Memory.writeBytes s.mem (s.dataAddr 0) (s.regsUpTo x) } : State).advance
  else raise .memOutOfRange (.ldMemVx x) s

/-- FX65 (R232-R234). -/
def execLdVxMem (x : Reg) (s : State) : Answer :=
  if memCheck (s.dataAddr 0) (x.val + 1) then
    .next ({ s with v := loadRegs s.mem (s.dataAddr 0) (x.val + 1) s.v } : State).advance
  else raise .memOutOfRange (.ldVxMem x) s

end Sys2Proof.Machine
end

