-- ==== Sys2Proof/Machine/KeysTimers.lean ====
section
/-! DEFINITION. The key and timer instructions of spec/45_timers_keys.md. -/

namespace Sys2Proof.Machine

/-- EX9E (R260): a key index above 0x0F faults (R261). -/
def execSkp (x : Reg) (s : State) : Answer :=
  match s.keyAt (s.reg x) with
  | some pressed => .next (s.skipWhen pressed)
  | none => raise .keyIndexOutOfRange (.skp x) s

/-- EXA1 (R262): a key index above 0x0F faults (R261). -/
def execSknp (x : Reg) (s : State) : Answer :=
  match s.keyAt (s.reg x) with
  | some pressed => .next (s.skipWhen (!pressed))
  | none => raise .keyIndexOutOfRange (.sknp x) s

/-- FX07 (R264). -/
def execLdVxDt (x : Reg) (s : State) : Answer := .next (s.setReg x s.dt).advance

/-- FX0A (R266-R268): with no key pressed nothing changes, and the next step polls again (R131). -/
def execLdVxK (x : Reg) (s : State) : Answer :=
  match s.leastKey with
  | some k => .next (s.setReg x (BitVec.ofNat 8 k)).advance
  | none => .next s

/-- FX15 (R270). -/
def execLdDtVx (x : Reg) (s : State) : Answer := .next ({ s with dt := s.reg x } : State).advance

/-- FX18 (R272): no tone is raised (R273). -/
def execLdStVx (x : Reg) (s : State) : Answer := .next ({ s with st := s.reg x } : State).advance

end Sys2Proof.Machine
end

