-- ==== Sys2Proof/Machine/Engine.lean ====
section
/-! DEFINITION. Fetch, decode and dispatch of spec/40_engine.md, and what `step()` returns to the host (R129). -/

namespace Sys2Proof.Machine

/-- The fetch check passes: PC is at most 0xFFE (R121). -/
def State.canFetch (s : State) : Bool := decide (s.pc.toNat + 1 ≤ Config.addrMax)

/-- The two bytes at PC, big-endian (R65, R122). -/
def State.fetchWord (s : State) : Word :=
  opcodeOf (Memory.read s.mem s.pc.toNat) (Memory.read s.mem (s.pc.toNat + 1))

/-- `step()` (R130), but for its return value: a core that is not running does nothing (R128); then the fetch check, the
decode and the handler, in this order (R304). -/
def runStep (s : State) : Answer :=
  if s.run = .running then
    if s.canFetch then
      match decode s.fetchWord with
      | .instr i => exec i s
      | .unimplemented op => .next (s.takeFault .unimplementedOpcode (some op))
      | .truncated => .next (s.takeFault .unimplementedOpcode (some s.fetchWord))
    else .next (s.takeFault .fetchOutOfRange none)
  else .next s

/-- The state an answer leaves; every answer of the core is a next state, and the other two would leave the state. -/
def answerState (s : State) : Answer → State
  | .next t => t
  | .fault _ => s
  | .refused _ => s

/-- What `step()` returns (R129). -/
inductive StepResult where
  /-- An instruction was executed; `drew` when it was 00E0 or DXYN. -/
  | ok (drew : Bool)
  /-- The step raised a fault. -/
  | halted (code : FaultCode)
  /-- The core was not running (R128). -/
  | notRunning
deriving DecidableEq, Repr

/-- The drawing instructions, 00E0 and DXYN (R129, R242, R247). -/
def drawing : Instr → Bool
  | .cls | .drw _ _ _ => true
  | .sys _ | .ret | .jp _ | .call _ | .seImm _ _ | .sneImm _ _ | .seReg _ _ | .ldImm _ _ | .addImm _ _ | .ldReg _ _
  | .orReg _ _ | .andReg _ _ | .xorReg _ _ | .addReg _ _ | .subReg _ _ | .shr _ _ | .subnReg _ _ | .shl _ _
  | .sneReg _ _ | .ldI _ | .jpV0 _ | .rnd _ _ | .skp _ | .sknp _ | .ldVxDt _ | .ldVxK _ | .ldDtVx _ | .ldStVx _
  | .addIVx _ | .ldFVx _ | .ldBVx _ | .ldMemVx _ | .ldVxMem _ => false

/-- The word at PC is a drawing instruction. -/
def State.drawsNext (s : State) : Bool :=
  match decode s.fetchWord with
  | .instr i => drawing i
  | .unimplemented _ => false
  | .truncated => false

/-- The return value of `step()` (R129, R130). -/
def stepResult (s : State) : StepResult :=
  if s.run = .running then
    let t := answerState s (runStep s)
    if t.run = .running then .ok s.drawsNext else .halted t.fault.code
  else .notRunning

/-- Where the next fetch reads, with PC moved to 0x200 when no fetch is possible. -/
def State.fetchable (s : State) : State := if s.canFetch then s else s.jump (BitVec.ofNat _ Config.programBase)

/-- The state that fetches the bytes `bs` next and runs them: the core running, the bytes at PC. -/
def State.placeAtFetch (s : State) (bs : List Byte) : State :=
  { s.fetchable with run := .running, mem := Memory.writeBytes s.mem s.fetchable.pc.toNat bs }

end Sys2Proof.Machine
end

