-- ==== Sys2Proof/Machine/Step.lean ====
section
/-! DEFINITION. One step of the core, and the placing of an instruction where the next step fetches it. -/

namespace Sys2Proof.Machine

/-- `step()` with the key state and the draw that the state holds (R130). -/
def step (s : State) : Host.Outcome State Fault Refusal := runStep s

/-- The state with a word of spec/opcode_table.json placed at PC and the core running, so that the very next step fetches
and runs it; it stands for the load of a program that holds the word. Log entry 1. -/
def State.withFetchWord (s : State) (nbits w : Nat) : State := s.placeAtFetch (tableBytes nbits w)

end Sys2Proof.Machine
end

