-- ==== Sys2Proof/Machine/HostInterface.lean ====
section
/-! DEFINITION. The other operations of the host (spec/00_scope.md R9, 40_engine.md R140, 60_exceptions.md R320-R333);
`loadProgram` stands in Machine/Ops.lean. -/

namespace Sys2Proof.Machine

/-! ## Timers, dirty flag, keys -/

/-- A timer counts down by one and stops at zero (R40, R320). -/
def countDown (b : Byte) : Byte := if b = 0 then 0 else b - 1

/-- `tickTimers()`: the new state and `tone`, raised when ST goes from 1 to 0 (R320, R321). -/
def State.tickTimers (s : State) : State × Bool :=
  if s.run = .running then ({ s with dt := countDown s.dt, st := countDown s.st }, s.st == 1) else (s, false)

/-- `clearDirty()`, in any run state (R333). -/
def State.clearDirty (s : State) : State := { s with dirty := false }

/-- The host writes the key slots (R46, R330). -/
def State.writeKeys (s : State) (keys : Vector Bool (delta% Config.numKeys)) : State := { s with keys := keys }

/-! ## Framebuffer read -/

/-- The pixel at a flat index `y * 64 + x` (R43). -/
def State.pixelAt (s : State) (k : Nat) : Bool := pixel s.fb (k % Config.fbW) (k / Config.fbW)

/-! ## Steps with their inputs, and the batch -/

/-- The inputs of one step: the key state and the draw for CXNN (R130). -/
structure StepInput where
  keys : Vector Bool (delta% Config.numKeys)
  draw : Draw
deriving DecidableEq, Repr

/-- The environment supplies the inputs of the next step. -/
def State.supply (s : State) (inp : StepInput) : State := { s with keys := inp.keys, draws := [inp.draw] }

/-- `step(key, rng)`: the new state and the return value (R129, R130). -/
def State.stepWith (s : State) (inp : StepInput) : State × StepResult :=
  (answerState (s.supply inp) (step (s.supply inp)), stepResult (s.supply inp))

/-- The loop of `stepBatch` with `fuel` steps left and `count` steps done (R140). -/
def batchFrom (inputs : Nat → StepInput) : Nat → Nat → State → State × Nat
  | 0, count, s => (s, count)
  | fuel + 1, count, s =>
    if s.run = .running then
      match s.stepWith (inputs count) with
      | (t, .ok false) => batchFrom inputs fuel (count + 1) t
      | (t, .ok true) => (t, count + 1)
      | (t, .halted _) => (t, count + 1)
      | (t, .notRunning) => (t, count + 1)
    else (s, count)

/-- `stepBatch(maxSteps)`: the new state and the number of steps that executed an instruction or faulted (R140, R141). -/
def State.stepBatch (s : State) (maxSteps : Nat) (inputs : Nat → StepInput) : State × Nat :=
  batchFrom inputs maxSteps 0 s

/-! ## Everything the host can do -/

/-- The operations that drive the core (R9, R330). -/
inductive HostOp where
  | step (inp : StepInput)
  | stepBatch (maxSteps : Nat) (inputs : Nat → StepInput)
  | tickTimers
  | loadProgram (bytes : List Byte)
  | clearDirty
  | writeKeys (keys : Vector Bool (delta% Config.numKeys))

/-- The state an operation leaves, on a core whose `FONT_DATA` is `font` (R11). -/
def State.apply (s : State) (op : HostOp) (font : Font := fontData) : State :=
  match op with
  | .step inp => (s.stepWith inp).1
  | .stepBatch maxSteps inputs => (s.stepBatch maxSteps inputs).1
  | .tickTimers => s.tickTimers.1
  | .loadProgram bytes => (s.loadProgram bytes font).1
  | .clearDirty => s.clearDirty
  | .writeKeys keys => s.writeKeys keys

/-- A host run: operations one after another, none overlapping (R9, R70). -/
def State.applyAll (s : State) (ops : List HostOp) (font : Font := fontData) : State :=
  ops.foldl (fun s op => s.apply op font) s

/-- One tick of the host, the batch first (R331). -/
def State.hostTickBatchFirst (s : State) (inputs : Nat → StepInput) : State × Bool :=
  (s.stepBatch Config.batchSteps inputs).1.tickTimers

/-- One tick of the host, the timers first (R331). -/
def State.hostTickTimersFirst (s : State) (inputs : Nat → StepInput) : State × Bool :=
  ((s.tickTimers.1.stepBatch Config.batchSteps inputs).1, s.tickTimers.2)

end Sys2Proof.Machine
end

