-- ==== Sys2Proof/Safety.lean ====
section
/-! DEFINITION. The invariant of the core, and the words the claims are stated in. -/

namespace Sys2Proof.Safety

open Sys2Proof.Machine

/-- The last PC a sequence of steps can write: NNN + V0 of BNNN (R36). -/
abbrev pcMax : Nat := 0x10FE

/-- A return address on the stack is the address of a 2NNN that was fetched (R154, R157). -/
def returnAddressesOk (s : State) : Prop := ∀ k : Fin 16, k.val < s.sp.val → s.stack[k].toNat ≤ 0xFFE

/-- The fault record and the run state agree: a halted core has a code, a running one has none, and the opcode is missing
exactly for a fetch fault (R48, R302). -/
def faultRecordOk (s : State) : Prop :=
  (s.run = .halted ↔ s.fault.code ≠ .none) ∧
    (s.run = .halted → (s.fault.opcode = none ↔ s.fault.code = .fetchOutOfRange))

/-- The invariant: memory is in canonical form, PC has not wrapped (R36), the return addresses are addresses of calls
(R154), and the fault record agrees with the run state. -/
structure Inv (s : State) : Prop where
  memWf : Memory.wf s.mem = true
  pcBound : s.pc.toNat ≤ pcMax
  returns : returnAddressesOk s
  record : faultRecordOk s

/-- A power-on state: no program, no fault; every other field is unspecified (R53, R354). -/
def PowerOn (s : State) : Prop := s.run = .noProgram ∧ s.fault.code = .none

/-- The core waits for a key: MWC8's optional `AwaitingKey` state is this predicate (R49, R269). -/
def awaitingKey (s : State) : Prop :=
  s.run = .running ∧ s.canFetch = true ∧ (∃ x, decode s.fetchWord = .instr (.ldVxK x)) ∧ ∀ k : Fin 16, s.keys[k] = false

/-- The core is running and fetches the word `op` at its PC: the condition under which an instruction executes (R121,
R122, R128). -/
def Fetches (s : State) (op : Word) : Prop :=
  s.run = .running ∧ s.pc.toNat ≤ 0xFFE ∧ Memory.read s.mem s.pc.toNat ++ Memory.read s.mem (s.pc.toNat + 1) = op

/-- The one check of its own that an instruction makes, and the fault it raises when the check fails (R300, R301, R304). -/
def ownFault : Instr → State → Option FaultCode
  | .ret, s => if s.sp.val = 0 then some .stackUnderflow else none
  | .call _, s => if s.sp.val = 16 then some .stackOverflow else none
  | .drw _ _ n, s => if n ≠ 0 ∧ s.i.toNat + n.toNat - 1 > 0xFFF then some .memOutOfRange else none
  | .ldBVx _, s => if s.i.toNat + 2 > 0xFFF then some .memOutOfRange else none
  | .ldMemVx x, s => if s.i.toNat + x.val > 0xFFF then some .memOutOfRange else none
  | .ldVxMem x, s => if s.i.toNat + x.val > 0xFFF then some .memOutOfRange else none
  | .skp x, s => if s.v[x].toNat > 0x0F then some .keyIndexOutOfRange else none
  | .sknp x, s => if s.v[x].toNat > 0x0F then some .keyIndexOutOfRange else none
  | .sys _, _ | .cls, _ | .jp _, _ | .seImm _ _, _ | .sneImm _ _, _ | .seReg _ _, _ | .sneReg _ _, _ | .jpV0 _, _
  | .ldImm _ _, _ | .addImm _ _, _ | .ldReg _ _, _ | .orReg _ _, _ | .andReg _ _, _ | .xorReg _ _, _
  | .addReg _ _, _ | .subReg _ _, _ | .shr _ _, _ | .subnReg _ _, _ | .shl _ _, _ | .ldI _, _ | .rnd _ _, _
  | .ldVxDt _, _ | .ldVxK _, _ | .ldDtVx _, _ | .ldStVx _, _ | .addIVx _, _ | .ldFVx _, _ => none

/-- The state in which the core has halted on a fault: the run state and the fault record of R302, all else as it was. -/
def haltedOn (s : State) (c : FaultCode) (op : Option Word) : State :=
  { s with run := .halted, fault := { code := c, pc := s.pc, opcode := op } }

/-- The register number as a 4-bit field of an opcode. -/
abbrev nib (x : Reg) : BitVec 4 := BitVec.ofFin (w := 4) x

/-- The pixel at column `px`, row `py` lies under a set bit of the sprite of `n` bytes at address `a` drawn at
(x0, y0): row r of the sprite is on row y0 + r, its bit 7 − c on column x0 + c (R244). -/
def underSetBit (m : Memory) (a x0 y0 n px py : Nat) : Bool :=
  decide (x0 ≤ px ∧ px < x0 + 8 ∧ y0 ≤ py ∧ py < y0 + n) && (Memory.read m (a + (py - y0))).getLsbD (7 - (px - x0))

/-- The registers an instruction may write (R32, R33). -/
def writesReg : Instr → Reg → Prop
  | .ldImm x _, r | .addImm x _, r | .ldReg x _, r | .orReg x _, r | .andReg x _, r | .xorReg x _, r | .rnd x _, r
  | .ldVxDt x, r | .ldVxK x, r => r = x
  | .addReg x _, r | .subReg x _, r | .shr x _, r | .subnReg x _, r | .shl x _, r => r = x ∨ r = 15
  | .drw _ _ _, r => r = 15
  | .ldVxMem x, r => r ≤ x
  | .sys _, _ | .cls, _ | .ret, _ | .jp _, _ | .call _, _ | .seImm _ _, _ | .sneImm _ _, _ | .seReg _ _, _
  | .sneReg _ _, _ | .jpV0 _, _ | .ldI _, _ | .skp _, _ | .sknp _, _ | .ldDtVx _, _ | .ldStVx _, _ | .addIVx _, _
  | .ldFVx _, _ | .ldBVx _, _ | .ldMemVx _, _ => False

/-- How many bytes an instruction stores, from the address in I (R66). -/
def storedBytes : Instr → Nat
  | .ldBVx _ => 3
  | .ldMemVx x => x.val + 1
  | .sys _ | .cls | .ret | .jp _ | .call _ | .seImm _ _ | .sneImm _ _ | .seReg _ _ | .sneReg _ _ | .jpV0 _ | .ldImm _ _
  | .addImm _ _ | .ldReg _ _ | .orReg _ _ | .andReg _ _ | .xorReg _ _ | .addReg _ _ | .subReg _ _ | .shr _ _
  | .subnReg _ _ | .shl _ _ | .ldI _ | .rnd _ _ | .drw _ _ _ | .skp _ | .sknp _ | .ldVxDt _ | .ldVxK _ | .ldDtVx _
  | .ldStVx _ | .addIVx _ | .ldFVx _ | .ldVxMem _ => 0

end Sys2Proof.Safety
end

