-- ==== Sys2Proof/Certificates/Slice0/Obligations.lean ====
section
/-! DEFINITION. The statements for the provers, each formalising rules of spec/ named in its docstring and in
OBLIGATIONS.json. In an instruction's statement the first conjunct says which word it is (its row of the opcode table),
the others what `exec` answers. -/

open Sys2Proof Sys2Proof.Machine Sys2Proof.Safety

/-! ## Encoding -/

/-- Decode and encode agree on every well-formed instruction, as a word and as bytes in memory (R92, R95, R101). -/
def Obligations.DecodeInvertsEncode : Prop :=
  ∀ i : Instr, i.wellFormed = true →
    decode (encode i) = .instr i ∧ ∀ rest, decodeBytes (encodeBytes i ++ rest) = .instr i

/-- Every word that decodes is the word of the instruction it decodes to, and that instruction is well-formed (R92, R95). -/
def Obligations.EncodeInvertsDecode : Prop :=
  ∀ (op : Word) (i : Instr), decode op = .instr i → i.wellFormed = true ∧ encode i = op

/-- Words written out from the encodings of R92, R95 and R101, one or more for each of the 16 families. -/
def Obligations.WrittenOutWordsDecode : Prop :=
  decode 0x0123 = .instr (.sys 0x123) ∧ decode 0x01E0 = .instr (.sys 0x1E0) ∧ decode 0x0FEE = .instr (.sys 0xFEE) ∧
  decode 0x00E0 = .instr .cls ∧ decode 0x00EE = .instr .ret ∧ decode 0x1ABC = .instr (.jp 0xABC) ∧
  decode 0x2400 = .instr (.call 0x400) ∧ decode 0x3310 = .instr (.seImm 3 0x10) ∧ decode 0x4311 = .instr (.sneImm 3 0x11) ∧
  decode 0x5120 = .instr (.seReg 1 2) ∧ decode 0x6A42 = .instr (.ldImm 10 0x42) ∧ decode 0x71FF = .instr (.addImm 1 0xFF) ∧
  decode 0x8344 = .instr (.addReg 3 4) ∧ decode 0x9120 = .instr (.sneReg 1 2) ∧ decode 0xB201 = .instr (.jpV0 0x201) ∧
  decode 0xC30F = .instr (.rnd 3 0x0F) ∧ decode 0xA300 = .instr (.ldI 0x300) ∧ decode 0xF265 = .instr (.ldVxMem 2) ∧
  decode 0xD125 = .instr (.drw 1 2 5) ∧ decode 0xE59E = .instr (.skp 5) ∧ decode 0xF10A = .instr (.ldVxK 1) ∧
  decode 0x5121 = .unimplemented 0x5121 ∧ decode 0x812F = .unimplemented 0x812F ∧ decode 0xF1FF = .unimplemented 0xF1FF

/-- The words that are no instruction, by family (R95, R96); every other word is one. -/
def Obligations.UnimplementedWordsByFamily : Prop :=
  ∀ op : Word,
    ((∃ i, decode op = .instr i) ↔ ¬ decode op = .unimplemented op) ∧
    (decode op = .unimplemented op ↔
      ((op.extractLsb' 12 4 = 0x5#4 ∨ op.extractLsb' 12 4 = 0x9#4) ∧ op.extractLsb' 0 4 ≠ 0x0#4) ∨
      (op.extractLsb' 12 4 = 0x8#4 ∧ op.extractLsb' 0 4 ∉ [0x0#4, 0x1#4, 0x2#4, 0x3#4, 0x4#4, 0x5#4, 0x6#4, 0x7#4, 0xE#4]) ∨
      (op.extractLsb' 12 4 = 0xE#4 ∧ op.extractLsb' 0 8 ∉ [0x9E#8, 0xA1#8]) ∨
      (op.extractLsb' 12 4 = 0xF#4 ∧
        op.extractLsb' 0 8 ∉ [0x07#8, 0x0A#8, 0x15#8, 0x18#8, 0x1E#8, 0x29#8, 0x33#8, 0x55#8, 0x65#8]))

/-- NNN of 0NNN and Y of 8XY6 and 8XYE are ignored: every value selects the same instruction, with the same effect (R94). -/
def Obligations.IgnoredFieldsHaveNoEffect : Prop :=
  ∀ (s : State) (x y y' : Reg) (nnn nnn' : Addr),
    (nnn ≠ 0x0E0 → nnn ≠ 0x0EE → decode (0x0#4 ++ nnn) = .instr (.sys nnn)) ∧ exec (.sys nnn) s = exec (.sys nnn') s ∧
    decode (0x8#4 ++ nib x ++ nib y ++ 0x6#4) = .instr (.shr x y) ∧ exec (.shr x y) s = exec (.shr x y') s ∧
    decode (0x8#4 ++ nib x ++ nib y ++ 0xE#4) = .instr (.shl x y) ∧ exec (.shl x y) s = exec (.shl x y') s

/-! ## The step -/

/-- A running core whose two bytes at PC, the first the high half, decode to an instruction steps as `exec` of it (R122,
R124). The step adds nothing around the handler: no PC change, no delay. -/
def Obligations.StepRunsTheDecodedInstruction : Prop :=
  ∀ (s : State) (op : Word) (i : Instr), Fetches s op → decode op = .instr i → step s = exec i s

/-- A fetch from a PC above 0xFFE faults; the record holds the PC and no opcode, and nothing else changes (R121). -/
def Obligations.FetchPastMemoryHalts : Prop :=
  ∀ s : State, s.run = .running → s.pc.toNat > 0xFFE →
    step s = .next (haltedOn s .fetchOutOfRange none) ∧ stepResult s = .halted .fetchOutOfRange

/-- A word that decodes to UNIMPLEMENTED faults with the word in the record, and nothing else changes (R98, R123). -/
def Obligations.UnimplementedWordHalts : Prop :=
  ∀ (s : State) (op : Word), Fetches s op → decode op = .unimplemented op →
    step s = .next (haltedOn s .unimplementedOpcode (some op)) ∧ stepResult s = .halted .unimplementedOpcode

/-- A step of a core that is not running does nothing and returns NotRunning (R128). -/
def Obligations.StepWhileNotRunningDoesNothing : Prop :=
  ∀ s : State, s.run ≠ .running → step s = .next s ∧ stepResult s = .notRunning

/-- What a step returns: NotRunning; Halted with the code of the fault it raised; else Ok, with `drew` exactly for 00E0 and
DXYN (R129). -/
def Obligations.StepReturnValue : Prop :=
  ∀ s t : State, step s = .next t →
    (s.run ≠ .running → stepResult s = .notRunning) ∧
    (s.run = .running → t.run = .halted → stepResult s = .halted t.fault.code) ∧
    (s.run = .running → t.run ≠ .halted →
      ∃ (op : Word) (i : Instr) (drew : Bool), Fetches s op ∧ decode op = .instr i ∧ stepResult s = .ok drew ∧
        (drew = true ↔ i = .cls ∨ ∃ x y n, i = .drw x y n))

/-- Every step, and every handler, answers a next state: the core has no behaviour the model stops on (R128, R301, R302). -/
def Obligations.EveryStepAnswersANextState : Prop :=
  (∀ s : State, ∃ t, step s = .next t) ∧ ∀ (i : Instr) (s : State), ∃ t, exec i s = .next t

/-- Faults are precise: a running step that halts changes the run state and the fault record and nothing else; the record
holds a code, the PC of the step and the fetched opcode, or no opcode for a fetch fault (R302). -/
def Obligations.FaultsArePrecise : Prop :=
  ∀ s t : State, step s = .next t → s.run = .running → t.run = .halted →
    ∃ (c : FaultCode) (o : Option Word), c ≠ .none ∧ t = haltedOn s c o ∧
      ((c = .fetchOutOfRange ∧ o = none ∧ s.pc.toNat > 0xFFE) ∨
        (c ≠ .fetchOutOfRange ∧ ∃ op, o = some op ∧ Fetches s op))

/-- The checks of a step in their order: the fetch check, the decode, the instruction's own check, of which it has at most
one; a step halts exactly when one fails, and the first is the one recorded (R304). -/
def Obligations.FaultPriority : Prop :=
  ∀ s t : State, step s = .next t → s.run = .running →
    (s.pc.toNat > 0xFFE → t.run = .halted ∧ t.fault.code = .fetchOutOfRange) ∧
    ∀ op, Fetches s op →
      (decode op = .unimplemented op → t.run = .halted ∧ t.fault.code = .unimplementedOpcode) ∧
      ∀ i, decode op = .instr i →
        (∀ c, ownFault i s = some c → t.run = .halted ∧ t.fault.code = c) ∧ (ownFault i s = none → t.run = .running)

/-- Each instruction's effect on PC (R125): the table, for an instruction whose own check passes; a faulting one leaves PC. -/
def Obligations.ProgramCounterTable : Prop :=
  ∀ (i : Instr) (s t : State), exec i s = .next t →
    (ownFault i s ≠ none → t.pc = s.pc) ∧
    (ownFault i s = none →
      match i with
      | .sys _ | .cls | .ldImm _ _ | .addImm _ _ | .ldReg _ _ | .orReg _ _ | .andReg _ _ | .xorReg _ _ | .addReg _ _
      | .subReg _ _ | .shr _ _ | .subnReg _ _ | .shl _ _ | .ldI _ | .rnd _ _ | .drw _ _ _ | .ldVxDt _ | .ldDtVx _
      | .ldStVx _ | .addIVx _ | .ldFVx _ | .ldBVx _ | .ldMemVx _ | .ldVxMem _ => t.pc = s.pc + 2
      | .seImm x nn => t.pc = if s.v[x] = nn then s.pc + 4 else s.pc + 2
      | .sneImm x nn => t.pc = if s.v[x] ≠ nn then s.pc + 4 else s.pc + 2
      | .seReg x y => t.pc = if s.v[x] = s.v[y] then s.pc + 4 else s.pc + 2
      | .sneReg x y => t.pc = if s.v[x] ≠ s.v[y] then s.pc + 4 else s.pc + 2
      | .skp x => ∀ k : Fin 16, k.val = s.v[x].toNat → t.pc = if s.keys[k] = true then s.pc + 4 else s.pc + 2
      | .sknp x => ∀ k : Fin 16, k.val = s.v[x].toNat → t.pc = if s.keys[k] = false then s.pc + 4 else s.pc + 2
      | .jp nnn | .call nnn => t.pc.toNat = nnn.toNat
      | .ret => ∀ k : Fin 16, k.val + 1 = s.sp.val → t.pc = s.stack[k] + 2
      | .jpV0 nnn => t.pc.toNat = nnn.toNat + s.v[0].toNat
      | .ldVxK _ => t.pc = if ∃ k : Fin 16, s.keys[k] = true then s.pc + 2 else s.pc)

/-- No PC update wraps in a state that meets the invariant: a step from a PC of at most 0xFFE advances it by 0, 2 or 4 as
an exact integer, returns to at most 0x1000, and jumps to at most 0x10FE. An inference of 10_state.md R36 from R34, R121
and R176. -/
def Obligations.ProgramCounterNeverWraps : Prop :=
  ∀ (i : Instr) (s t : State), Inv s → s.pc.toNat ≤ 0xFFE → exec i s = .next t →
    match i with
    | .jp _ | .call _ => t.pc.toNat ≤ 0xFFF
    | .jpV0 _ => t.pc.toNat ≤ 0x10FE
    | .ret => t.pc.toNat ≤ 0x1000
    | _ => t.pc.toNat = s.pc.toNat ∨ t.pc.toNat = s.pc.toNat + 2 ∨ t.pc.toNat = s.pc.toNat + 4

/-! ## The invariant -/

/-- The reset state meets the invariant. -/
def Obligations.InvariantHoldsAtReset : Prop := Inv State.reset

/-- Every step keeps the invariant: memory in canonical form, PC at most 0x10FE, return addresses of fetched calls, a fault
record that agrees with the run state. -/
def Obligations.StepKeepsInvariant : Prop := ∀ s t : State, Inv s → step s = .next t → Inv t

/-- Every operation of the host keeps the invariant, and so does every run of them, whatever the font (R9, R11, R330). -/
def Obligations.HostRunsKeepInvariant : Prop :=
  ∀ font : Font, (∀ (s : State) (op : HostOp), Inv s → Inv (s.apply op font)) ∧
    ∀ (s : State) (ops : List HostOp), Inv s → Inv (s.applyAll ops font)

/-- Two memories in canonical form that read alike at every address are the same data. The canonical form is the
model's (log entry 2), not the spec's. -/
def Obligations.CanonicalMemoriesAreEqualData : Prop :=
  ∀ m m' : Memory, Memory.wf m = true → Memory.wf m' = true → (∀ a, Memory.read m a = Memory.read m' a) → m = m'

/-! ## Load, timers, dirty flag, run state -/

/-- A load of at most 3584 bytes sets every field to its load value of R52 (R350) and leaves the keys; a longer program is
rejected and no state changes (R351). `FONT_DATA` is the argument `font` (R11): it holds for every font. -/
def Obligations.LoadSetsEveryField : Prop :=
  ∀ (s : State) (bytes : List Byte) (font : Font),
    (bytes.length > 3584 → s.loadProgram bytes font = (s, .rejected)) ∧
    (bytes.length ≤ 3584 → ∃ t : State, s.loadProgram bytes font = (t, .loaded) ∧
      (∀ a, a < 4096 → Memory.read t.mem a =
        if 0x200 ≤ a ∧ a < 0x200 + bytes.length then bytes.getD (a - 0x200) 0
        else if 0x050 ≤ a ∧ a < 0x0A0 then font.toList.getD (a - 0x050) 0 else 0) ∧
      (∀ r : Reg, t.v[r] = 0) ∧ t.i = 0 ∧ t.pc = 0x0200 ∧ t.sp = 0 ∧ t.dt = 0 ∧ t.st = 0 ∧
      (∀ px py, px < 64 → py < 32 → pixel t.fb px py = false) ∧ t.dirty = true ∧ t.fault.code = .none ∧ t.run = .running ∧
      t.keys = s.keys)

/-- A load's effect does not depend on the state before it: two loads of one program, with one font, from any two states
agree on the timers, PC, registers, I, the stack, and all else but the environment's key state and draws (R353). That they
agree on the stack entries and on the PC and opcode of the empty fault record too is the model's choice, not the spec's: the
load gives those fields the values of log entry 3 (DESIGN CHOICE), where R39 and R52 give none. -/
def Obligations.LoadIgnoresThePriorState : Prop :=
  ∀ (s s' : State) (bytes : List Byte) (font : Font), bytes.length ≤ 3584 →
    (s.loadProgram bytes font).1 =
      { (s'.loadProgram bytes font).1 with keys := s.keys, draws := s.draws, drawCount := s.drawCount } ∧
    (s.loadProgram bytes font).1.dt = 0 ∧ (s.loadProgram bytes font).1.st = 0 ∧ (s.loadProgram bytes font).1.pc = 0x200 ∧
    (∀ r : Reg, (s.loadProgram bytes font).1.v[r] = 0) ∧ (s.loadProgram bytes font).1.i = 0 ∧
    (s.loadProgram bytes font).1.sp = 0

/-- The reset state is the load of the empty program with the default font: the values of R52's load column. That reset
means this load is the model's reading (log entry 1), the default font is log entry 2, and the stack entries, the PC and
opcode of the empty fault record and the released keypad are the model's choice (log entry 3, DESIGN CHOICE). -/
def Obligations.ResetIsTheEmptyLoad : Prop :=
  (∀ s : State, (s.loadProgram [] fontData).1 =
    { State.reset with keys := s.keys, draws := s.draws, drawCount := s.drawCount }) ∧
  State.reset.pc = 0x0200 ∧ State.reset.run = .running ∧ State.reset.dirty = true ∧ State.reset.fault.code = .none ∧
  State.reset.sp = 0 ∧ State.reset.i = 0 ∧ State.reset.dt = 0 ∧ State.reset.st = 0 ∧
  (∀ r : Reg, State.reset.v[r] = 0) ∧ (∀ px py, pixel State.reset.fb px py = false) ∧
  ∀ a, Memory.read State.reset.mem a = if 0x050 ≤ a ∧ a < 0x0A0 then fontData.toList.getD (a - 0x050) 0 else 0

/-- In any power-on state, whatever its unspecified fields hold, a step and a tick do nothing (R354). -/
def Obligations.PowerOnCoreDoesNothing : Prop :=
  ∀ s : State, PowerOn s →
    step s = .next s ∧ stepResult s = .notRunning ∧ s.tickTimers = (s, false)

/-- A halted core stays halted, with its fault record, through every host run without a successful load; its steps return
NotRunning and its ticks do nothing; a successful load makes it run (R303). -/
def Obligations.HaltedUntilLoad : Prop :=
  ∀ (s : State) (font : Font), s.run = .halted →
    (∀ ops : List HostOp, (∀ bytes, HostOp.loadProgram bytes ∈ ops → bytes.length > 3584) →
      (s.applyAll ops font).run = .halted ∧ (s.applyAll ops font).fault = s.fault) ∧
    stepResult s = .notRunning ∧ step s = .next s ∧ s.tickTimers = (s, false) ∧
    ∀ bytes, bytes.length ≤ 3584 → (s.apply (.loadProgram bytes) font).run = .running

/-- `tickTimers()`: each timer above zero goes down by one, on its own; tone exactly when ST reaches zero; nothing unless
the core runs (R320). -/
def Obligations.TickCountsTheTimersDown : Prop :=
  ∀ s : State,
    (s.run ≠ .running → s.tickTimers = (s, false)) ∧
    (s.run = .running → ∃ (d t : Byte) (tone : Bool), s.tickTimers = ({ s with dt := d, st := t }, tone) ∧
      d.toNat = s.dt.toNat - 1 ∧ t.toNat = s.st.toNat - 1 ∧ (tone = true ↔ s.st.toNat > 0 ∧ t.toNat = 0))

/-- `clearDirty()` clears the flag and nothing else, in any run state, and no other operation clears it (R333). -/
def Obligations.OnlyClearDirtyClears : Prop :=
  ∀ (s : State) (font : Font), s.apply .clearDirty font = { s with dirty := false } ∧
    ∀ op : HostOp, op ≠ .clearDirty → s.dirty = true → (s.apply op font).dirty = true

/-! ## The batch -/

/-- `stepBatch` (R140): no step when `maxSteps` is 0 or the core is not running; else one step with its own inputs, counted,
and then the rest of the batch unless the step drew or halted. -/
def Obligations.BatchRunsStepByStep : Prop :=
  ∀ (s : State) (inputs : Nat → StepInput),
    s.stepBatch 0 inputs = (s, 0) ∧
    ∀ n, s.stepBatch (n + 1) inputs =
      if s.run = .running then
        if (s.stepWith (inputs 0)).2 = .ok false then
          (((s.stepWith (inputs 0)).1.stepBatch n fun k => inputs (k + 1)).1,
            ((s.stepWith (inputs 0)).1.stepBatch n fun k => inputs (k + 1)).2 + 1)
        else ((s.stepWith (inputs 0)).1, 1)
      else (s, 0)

/-- A batch that waits for a key uses up all its steps and changes nothing but the environment's inputs (R131, R267). -/
def Obligations.KeyWaitUsesUpTheBatch : Prop :=
  ∀ (s : State) (inputs : Nat → StepInput) (n : Nat), awaitingKey s → (∀ k (j : Fin 16), (inputs k).keys[j] = false) →
    (s.stepBatch n inputs).2 = n ∧
      (s.stepBatch n inputs).1 =
        { s with keys := (s.stepBatch n inputs).1.keys, draws := (s.stepBatch n inputs).1.draws }

/-! ## Control flow -/

/-- 0NNN is a no-operation that advances PC (R150). -/
def Obligations.SysIsNoOperation : Prop :=
  ∀ (s : State) (nnn : Addr),
    (nnn ≠ 0x0E0 → nnn ≠ 0x0EE → decode (0x0#4 ++ nnn) = .instr (.sys nnn)) ∧
    exec (.sys nnn) s = .next { s with pc := s.pc + 2 }

/-- 00EE pops the return address and resumes two bytes after it (R152); an empty stack faults and changes nothing else
(R153). -/
def Obligations.ReturnPopsTheStack : Prop :=
  decode 0x00EE = .instr .ret ∧
  ∀ s : State,
    (∀ k : Fin 16, k.val + 1 = s.sp.val →
      exec .ret s = .next { s with sp := k.castSucc, pc := s.stack[k] + 2 }) ∧
    (s.sp.val = 0 → exec .ret s = .next (haltedOn s .stackUnderflow (some 0x00EE)))

/-- 1NNN sets PC to NNN (R155). -/
def Obligations.JumpSetsProgramCounter : Prop :=
  ∀ (s : State) (nnn : Addr), decode (0x1#4 ++ nnn) = .instr (.jp nnn) ∧
    exec (.jp nnn) s = .next { s with pc := 0x0#4 ++ nnn }

/-- 2NNN pushes its own address and jumps (R157); a full stack faults and changes nothing else (R158). -/
def Obligations.CallPushesItsOwnAddress : Prop :=
  ∀ (s : State) (nnn : Addr), decode (0x2#4 ++ nnn) = .instr (.call nnn) ∧
    (∀ k : Fin 16, k.val = s.sp.val →
      exec (.call nnn) s = .next { s with stack := s.stack.set k s.pc, sp := k.succ, pc := 0x0#4 ++ nnn }) ∧
    (s.sp.val = 16 → exec (.call nnn) s = .next (haltedOn s .stackOverflow (some (0x2#4 ++ nnn))))

/-- A call and the matching return are together a step to the next instruction: PC two further, the depth as before, and
only the entry above the stack's top written. An inference of 41_control_flow.md R159 from R152 and R157. -/
def Obligations.CallThenReturn : Prop :=
  ∀ (s : State) (nnn : Addr), s.sp.val < 16 →
    ∃ t u : State, exec (.call nnn) s = .next t ∧ exec .ret t = .next u ∧ u.pc = s.pc + 2 ∧ u.sp = s.sp ∧
      u = { s with stack := u.stack, pc := u.pc } ∧ ∀ k : Fin 16, k.val < s.sp.val → u.stack[k] = s.stack[k]

/-- 3XNN and 4XNN compare VX with NN, 5XY0 and 9XY0 compare VX with VY; PC advances by 4 when the condition holds and by 2
otherwise (R160, R162, R164, R166). -/
def Obligations.SkipsCompareAndAdvance : Prop :=
  ∀ (s : State) (x y : Reg) (nn : Byte),
    decode (0x3#4 ++ nib x ++ nn) = .instr (.seImm x nn) ∧
    exec (.seImm x nn) s = .next { s with pc := if s.v[x] = nn then s.pc + 4 else s.pc + 2 } ∧
    decode (0x4#4 ++ nib x ++ nn) = .instr (.sneImm x nn) ∧
    exec (.sneImm x nn) s = .next { s with pc := if s.v[x] ≠ nn then s.pc + 4 else s.pc + 2 } ∧
    decode (0x5#4 ++ nib x ++ nib y ++ 0x0#4) = .instr (.seReg x y) ∧
    exec (.seReg x y) s = .next { s with pc := if s.v[x] = s.v[y] then s.pc + 4 else s.pc + 2 } ∧
    decode (0x9#4 ++ nib x ++ nib y ++ 0x0#4) = .instr (.sneReg x y) ∧
    exec (.sneReg x y) s = .next { s with pc := if s.v[x] ≠ s.v[y] then s.pc + 4 else s.pc + 2 }

/-- BNNN jumps to the exact sum NNN + V0, not reduced to 12 bits (R176). -/
def Obligations.JumpWithOffsetIsExact : Prop :=
  ∀ (s : State) (nnn : Addr), decode (0xB#4 ++ nnn) = .instr (.jpV0 nnn) ∧
    ∃ w : Word, w.toNat = nnn.toNat + s.v[0].toNat ∧ exec (.jpV0 nnn) s = .next { s with pc := w }

/-! ## Loads, arithmetic, logic, shifts, random -/

/-- 6XNN loads NN, 8XY0 copies VY, 7XNN adds NN modulo 256 and writes no flag (R180, R182, R184). -/
def Obligations.LoadsAndAddImmediate : Prop :=
  ∀ (s : State) (x y : Reg) (nn : Byte),
    decode (0x6#4 ++ nib x ++ nn) = .instr (.ldImm x nn) ∧
    exec (.ldImm x nn) s = .next { s with v := s.v.set x nn, pc := s.pc + 2 } ∧
    decode (0x8#4 ++ nib x ++ nib y ++ 0x0#4) = .instr (.ldReg x y) ∧
    exec (.ldReg x y) s = .next { s with v := s.v.set x s.v[y], pc := s.pc + 2 } ∧
    decode (0x7#4 ++ nib x ++ nn) = .instr (.addImm x nn) ∧
    exec (.addImm x nn) s =
      .next { s with v := s.v.set x (BitVec.ofNat 8 ((s.v[x].toNat + nn.toNat) % 256)), pc := s.pc + 2 }

/-- 8XY1, 8XY2 and 8XY3 are the bitwise OR, AND and exclusive OR; VF is not written (R186, R188, R190). -/
def Obligations.LogicWritesNoFlag : Prop :=
  ∀ (s : State) (x y : Reg),
    decode (0x8#4 ++ nib x ++ nib y ++ 0x1#4) = .instr (.orReg x y) ∧
    exec (.orReg x y) s = .next { s with v := s.v.set x (s.v[x] ||| s.v[y]), pc := s.pc + 2 } ∧
    decode (0x8#4 ++ nib x ++ nib y ++ 0x2#4) = .instr (.andReg x y) ∧
    exec (.andReg x y) s = .next { s with v := s.v.set x (s.v[x] &&& s.v[y]), pc := s.pc + 2 } ∧
    decode (0x8#4 ++ nib x ++ nib y ++ 0x3#4) = .instr (.xorReg x y) ∧
    exec (.xorReg x y) s = .next { s with v := s.v.set x (s.v[x] ^^^ s.v[y]), pc := s.pc + 2 }

/-- 8XY4: VF is the carry of the exact sum, then VX the sum modulo 256 (R192). -/
def Obligations.AddSetsCarry : Prop :=
  ∀ (s : State) (x y : Reg), decode (0x8#4 ++ nib x ++ nib y ++ 0x4#4) = .instr (.addReg x y) ∧
    exec (.addReg x y) s =
      .next { s with
        v := (s.v.set 15 (if s.v[x].toNat + s.v[y].toNat > 255 then 1 else 0)).set x
          (BitVec.ofNat 8 ((s.v[x].toNat + s.v[y].toNat) % 256))
        pc := s.pc + 2 }

/-- 8XY5 and 8XY7: VF is 0 on a borrow and 1 without, then VX the difference, VX − VY or VY − VX, modulo 256 (R195,
R201). -/
def Obligations.SubtractionsSetNotBorrow : Prop :=
  ∀ (s : State) (x y : Reg), decode (0x8#4 ++ nib x ++ nib y ++ 0x5#4) = .instr (.subReg x y) ∧
    exec (.subReg x y) s =
      .next { s with
        v := (s.v.set 15 (if s.v[x].toNat < s.v[y].toNat then 0 else 1)).set x
          (BitVec.ofInt 8 (((s.v[x].toNat : Int) - (s.v[y].toNat : Int)) % 256))
        pc := s.pc + 2 } ∧
    decode (0x8#4 ++ nib x ++ nib y ++ 0x7#4) = .instr (.subnReg x y) ∧
    exec (.subnReg x y) s =
      .next { s with
        v := (s.v.set 15 (if s.v[x].toNat > s.v[y].toNat then 0 else 1)).set x
          (BitVec.ofInt 8 (((s.v[y].toNat : Int) - (s.v[x].toNat : Int)) % 256))
        pc := s.pc + 2 }

/-- 8XY6 and 8XYE: VF is the bit shifted out, then VX the shifted value; VY is not read (R198, R204). -/
def Obligations.ShiftsMoveABitToVF : Prop :=
  ∀ (s : State) (x y : Reg),
    decode (0x8#4 ++ nib x ++ nib y ++ 0x6#4) = .instr (.shr x y) ∧
    exec (.shr x y) s =
      .next { s with
        v := (s.v.set 15 (BitVec.ofNat 8 (s.v[x].toNat % 2))).set x (BitVec.ofNat 8 (s.v[x].toNat / 2))
        pc := s.pc + 2 } ∧
    decode (0x8#4 ++ nib x ++ nib y ++ 0xE#4) = .instr (.shl x y) ∧
    exec (.shl x y) s =
      .next { s with
        v := (s.v.set 15 (BitVec.ofNat 8 (s.v[x].toNat / 128 % 2))).set x (BitVec.ofNat 8 (s.v[x].toNat * 2 % 256))
        pc := s.pc + 2 }

/-- Where an instruction writes VF as a flag and VX, VF comes first and both come from the registers before it: VX always
holds the result, VF the flag unless X = F, every other register its old value (R179). -/
def Obligations.FlagIsWrittenBeforeTheResult : Prop :=
  ∀ (s : State) (x y : Reg) (i : Instr) (result flag : Nat),
    (i = .addReg x y ∧ result = (s.v[x].toNat + s.v[y].toNat) % 256 ∧ flag = (s.v[x].toNat + s.v[y].toNat) / 256) ∨
    (i = .subReg x y ∧ result = (s.v[x].toNat + 256 - s.v[y].toNat) % 256 ∧
      flag = (s.v[x].toNat + 256 - s.v[y].toNat) / 256) ∨
    (i = .subnReg x y ∧ result = (s.v[y].toNat + 256 - s.v[x].toNat) % 256 ∧
      flag = (s.v[y].toNat + 256 - s.v[x].toNat) / 256) ∨
    (i = .shr x y ∧ result = s.v[x].toNat / 2 ∧ flag = s.v[x].toNat % 2) ∨
    (i = .shl x y ∧ result = s.v[x].toNat * 2 % 256 ∧ flag = s.v[x].toNat / 128) →
    ∃ t : State, exec i s = .next t ∧ t.v[x].toNat = result ∧ (x ≠ 15 → t.v[15].toNat = flag) ∧
      ∀ r : Reg, r ≠ x → r ≠ 15 → t.v[r] = s.v[r]

/-- CXNN writes NN AND r for a draw r in [1, 255], the environment's when it has queued one; the draw is used up (R210). -/
def Obligations.RandomByteIsMasked : Prop :=
  ∀ (s : State) (x : Reg) (nn : Byte), decode (0xC#4 ++ nib x ++ nn) = .instr (.rnd x nn) ∧
    ∃ r : Nat, 1 ≤ r ∧ r ≤ 255 ∧ (∀ d ds, s.draws = d :: ds → r = d.val + 1) ∧
      exec (.rnd x nn) s =
        .next { s with
          v := s.v.set x (nn &&& BitVec.ofNat 8 r), pc := s.pc + 2, draws := s.draws.tail, drawCount := s.drawCount + 1 }

/-- The result of CXNN is a subset of the bits of NN; NN = 0 gives 0 and NN = 0xFF never does, whatever the draw (R211). -/
def Obligations.RandomResultIsASubset : Prop :=
  ∀ (s t : State) (x : Reg) (nn : Byte), exec (.rnd x nn) s = .next t →
    (∀ k, t.v[x].getLsbD k = true → nn.getLsbD k = true) ∧ (nn = 0x00 → t.v[x] = 0x00) ∧ (nn = 0xFF → t.v[x] ≠ 0x00)

/-- Two CXNN in a row may give any two values in [1, 255]: the environment can supply them (R212). -/
def Obligations.AnyTwoDrawsAreAllowed : Prop :=
  ∀ (s : State) (x y : Reg) (a b : Byte), a ≠ 0 → b ≠ 0 → x ≠ y →
    ∃ (draws : List Draw) (t u : State), exec (.rnd x 0xFF) { s with draws := draws } = .next t ∧
      exec (.rnd y 0xFF) t = .next u ∧ u.v[x] = a ∧ u.v[y] = b

/-! ## Index register and memory -/

/-- ANNN loads I, FX1E adds VX to it modulo 2^16 and writes no flag, FX29 points it at the glyph of the whole VX (R220,
R222, R224). -/
def Obligations.IndexRegisterWrites : Prop :=
  ∀ (s : State) (x : Reg) (nnn : Addr),
    decode (0xA#4 ++ nnn) = .instr (.ldI nnn) ∧
    exec (.ldI nnn) s = .next { s with i := 0x0#4 ++ nnn, pc := s.pc + 2 } ∧
    decode (0xF#4 ++ nib x ++ 0x1E#8) = .instr (.addIVx x) ∧
    exec (.addIVx x) s =
      .next { s with i := BitVec.ofNat 16 ((s.i.toNat + s.v[x].toNat) % 65536), pc := s.pc + 2 } ∧
    decode (0xF#4 ++ nib x ++ 0x29#8) = .instr (.ldFVx x) ∧
    exec (.ldFVx x) s = .next { s with i := BitVec.ofNat 16 (0x050 + 5 * s.v[x].toNat), pc := s.pc + 2 }

/-- After a load with any font, FX29 of a digit points I at the five bytes of that digit's glyph in that font (R51, R224,
R350). A glyph's bytes are the parameter's. -/
def Obligations.GlyphOfTheLoadedFont : Prop :=
  ∀ (s t : State) (bytes : List Byte) (font : Font) (x : Reg) (d : Fin 16) (r : Fin 5), bytes.length ≤ 3584 →
    t.mem = (s.loadProgram bytes font).1.mem → t.v[x].toNat = d.val →
    ∃ u : State, exec (.ldFVx x) t = .next u ∧ Memory.read u.mem (u.i.toNat + r.val) = font[5 * d.val + r.val]

/-- FX33 stores the three decimal digits of VX at I, I+1 and I+2 and no other byte (R226); when I + 2 lies above 0xFFF it
faults and writes nothing (R228). -/
def Obligations.StoreDecimalDigits : Prop :=
  ∀ (s : State) (x : Reg), decode (0xF#4 ++ nib x ++ 0x33#8) = .instr (.ldBVx x) ∧
    (s.i.toNat + 2 ≤ 0xFFF →
      ∃ m : Memory, exec (.ldBVx x) s = .next { s with mem := m, pc := s.pc + 2 } ∧
        ∀ a, Memory.read m a =
          if a = s.i.toNat then BitVec.ofNat 8 (s.v[x].toNat / 100)
          else if a = s.i.toNat + 1 then BitVec.ofNat 8 (s.v[x].toNat / 10 % 10)
          else if a = s.i.toNat + 2 then BitVec.ofNat 8 (s.v[x].toNat % 10)
          else Memory.read s.mem a) ∧
    (s.i.toNat + 2 > 0xFFF →
      exec (.ldBVx x) s = .next (haltedOn s .memOutOfRange (some (0xF#4 ++ nib x ++ 0x33#8))))

/-- FX55 stores V0 to VX at I to I+X and no other byte, I unchanged (R229); when I + X lies above 0xFFF it faults and writes
nothing (R231). -/
def Obligations.StoreRegisters : Prop :=
  ∀ (s : State) (x : Reg), decode (0xF#4 ++ nib x ++ 0x55#8) = .instr (.ldMemVx x) ∧
    (s.i.toNat + x.val ≤ 0xFFF →
      ∃ m : Memory, exec (.ldMemVx x) s = .next { s with mem := m, pc := s.pc + 2 } ∧
        (∀ k : Reg, k ≤ x → Memory.read m (s.i.toNat + k.val) = s.v[k]) ∧
        ∀ a, (a < s.i.toNat ∨ a > s.i.toNat + x.val) → Memory.read m a = Memory.read s.mem a) ∧
    (s.i.toNat + x.val > 0xFFF →
      exec (.ldMemVx x) s = .next (haltedOn s .memOutOfRange (some (0xF#4 ++ nib x ++ 0x55#8))))

/-- FX65 loads V0 to VX from I to I+X, I and the registers above VX unchanged (R232); when I + X lies above 0xFFF it faults
and loads nothing (R234). -/
def Obligations.LoadRegisters : Prop :=
  ∀ (s : State) (x : Reg), decode (0xF#4 ++ nib x ++ 0x65#8) = .instr (.ldVxMem x) ∧
    (s.i.toNat + x.val ≤ 0xFFF →
      ∃ v : Vector Byte 16, exec (.ldVxMem x) s = .next { s with v := v, pc := s.pc + 2 } ∧
        ∀ k : Reg, v[k] = if k ≤ x then Memory.read s.mem (s.i.toNat + k.val) else s.v[k]) ∧
    (s.i.toNat + x.val > 0xFFF →
      exec (.ldVxMem x) s = .next (haltedOn s .memOutOfRange (some (0xF#4 ++ nib x ++ 0x65#8))))

/-- A word stored by FX55 is what the next fetch from its address reads: no fence is needed (R72, and the inference R75
from it). -/
def Obligations.StoredBytesAreFetchedNext : Prop :=
  ∀ (s t : State) (x k : Reg), s.i.toNat + x.val ≤ 0xFFF → exec (.ldMemVx x) s = .next t → k < x →
    t.pc.toNat = s.i.toNat + k.val → ∀ j : Reg, j.val = k.val + 1 → t.fetchWord = s.v[k] ++ s.v[j]

/-! ## Display -/

/-- 00E0 unsets every pixel and sets the dirty flag; VF is not written (R240). -/
def Obligations.ClearUnsetsEveryPixel : Prop :=
  decode 0x00E0 = .instr .cls ∧
  ∀ s : State, ∃ fb : Framebuffer, exec .cls s = .next { s with fb := fb, dirty := true, pc := s.pc + 2 } ∧
    ∀ px py, px < 64 → py < 32 → pixel fb px py = false

/-- DXYN inverts exactly the grid pixels under the sprite's set bits, clipped at the edges, sets VF to 1 when one of them
was set and to 0 otherwise, and sets the dirty flag (R243, R244, R245, R246); a sprite byte above 0xFFF faults and nothing
is drawn (R249). -/
def Obligations.DrawInvertsTheSpritePixels : Prop :=
  ∀ (s : State) (x y : Reg) (n : Nibble),
    decode (0xD#4 ++ nib x ++ nib y ++ n) = .instr (.drw x y n) ∧
    (n = 0 ∨ s.i.toNat + n.toNat - 1 ≤ 0xFFF →
      ∃ (fb : Framebuffer) (c : Byte),
        exec (.drw x y n) s = .next { s with fb := fb, v := s.v.set 15 c, dirty := true, pc := s.pc + 2 } ∧
        (∀ px py, px < 64 → py < 32 → pixel fb px py =
          (pixel s.fb px py ^^ underSetBit s.mem s.i.toNat s.v[x].toNat s.v[y].toNat n.toNat px py)) ∧
        ((c = 1 ∧ ∃ px py, px < 64 ∧ py < 32 ∧ pixel s.fb px py = true ∧
            underSetBit s.mem s.i.toNat s.v[x].toNat s.v[y].toNat n.toNat px py = true) ∨
          (c = 0 ∧ ∀ px py, px < 64 → py < 32 → pixel s.fb px py = true →
            underSetBit s.mem s.i.toNat s.v[x].toNat s.v[y].toNat n.toNat px py = false))) ∧
    (n ≠ 0 ∧ s.i.toNat + n.toNat - 1 > 0xFFF →
      exec (.drw x y n) s = .next (haltedOn s .memOutOfRange (some (0xD#4 ++ nib x ++ nib y ++ n))))

/-- A sprite drawn twice at the same place leaves the picture as it was; on a clear picture the second draw collides when a
set bit lands on the grid. An inference of 44_display.md R251 from R243 and R246; the rule's VF = 1 is stated for pixels
that were unset before the first draw, which its source sentence presumes. -/
def Obligations.DrawingTwiceRestores : Prop :=
  ∀ (s : State) (x y : Reg) (n : Nibble), x ≠ 15 → y ≠ 15 → (n = 0 ∨ s.i.toNat + n.toNat - 1 ≤ 0xFFF) →
    ∃ t u : State, exec (.drw x y n) s = .next t ∧ exec (.drw x y n) t = .next u ∧
      (∀ px py, px < 64 → py < 32 → pixel u.fb px py = pixel s.fb px py) ∧
      (u.v[15] = 1 ↔ ∃ px py, px < 64 ∧ py < 32 ∧ pixel s.fb px py = false ∧
        underSetBit s.mem s.i.toNat s.v[x].toNat s.v[y].toNat n.toNat px py = true)

/-! ## Keys and timers -/

/-- EX9E skips when key VX is pressed, EXA1 when it is not (R260, R262); an index above 0x0F faults and changes nothing
else (R261). -/
def Obligations.KeySkips : Prop :=
  ∀ (s : State) (x : Reg),
    decode (0xE#4 ++ nib x ++ 0x9E#8) = .instr (.skp x) ∧ decode (0xE#4 ++ nib x ++ 0xA1#8) = .instr (.sknp x) ∧
    (∀ k : Fin 16, k.val = s.v[x].toNat →
      exec (.skp x) s = .next { s with pc := if s.keys[k] = true then s.pc + 4 else s.pc + 2 } ∧
      exec (.sknp x) s = .next { s with pc := if s.keys[k] = false then s.pc + 4 else s.pc + 2 }) ∧
    (s.v[x].toNat > 0x0F →
      exec (.skp x) s = .next (haltedOn s .keyIndexOutOfRange (some (0xE#4 ++ nib x ++ 0x9E#8))) ∧
      exec (.sknp x) s = .next (haltedOn s .keyIndexOutOfRange (some (0xE#4 ++ nib x ++ 0xA1#8))))

/-- FX0A polls: with no key pressed nothing changes; else the least pressed index goes to VX (R266). -/
def Obligations.KeyWaitPolls : Prop :=
  ∀ (s : State) (x : Reg), decode (0xF#4 ++ nib x ++ 0x0A#8) = .instr (.ldVxK x) ∧
    ((∀ k : Fin 16, s.keys[k] = false) → exec (.ldVxK x) s = .next s) ∧
    ∀ k : Fin 16, s.keys[k] = true → (∀ j : Fin 16, j < k → s.keys[j] = false) →
      exec (.ldVxK x) s = .next { s with v := s.v.set x (BitVec.ofNat 8 k.val), pc := s.pc + 2 }

/-- FX07 reads DT, FX15 writes DT, FX18 writes ST (R264, R270, R272). -/
def Obligations.TimerTransfers : Prop :=
  ∀ (s : State) (x : Reg),
    decode (0xF#4 ++ nib x ++ 0x07#8) = .instr (.ldVxDt x) ∧
    exec (.ldVxDt x) s = .next { s with v := s.v.set x s.dt, pc := s.pc + 2 } ∧
    decode (0xF#4 ++ nib x ++ 0x15#8) = .instr (.ldDtVx x) ∧
    exec (.ldDtVx x) s = .next { s with dt := s.v[x], pc := s.pc + 2 } ∧
    decode (0xF#4 ++ nib x ++ 0x18#8) = .instr (.ldStVx x) ∧
    exec (.ldStVx x) s = .next { s with st := s.v[x], pc := s.pc + 2 }

/-! ## Frames, for all 35 instructions -/

/-- A register changes only by an instruction that names it as its destination, VF also by the flag writers (R32, R33). -/
def Obligations.RegisterFrame : Prop :=
  ∀ (i : Instr) (s t : State) (r : Reg), exec i s = .next t → ¬ writesReg i r → t.v[r] = s.v[r]

/-- Memory changes only by FX33 and FX55, and only at the bytes from the address in I that they store to: three, and X + 1
(R61, R66). -/
def Obligations.MemoryFrame : Prop :=
  ∀ (i : Instr) (s t : State) (a : Nat), exec i s = .next t →
    ¬(s.i.toNat ≤ a ∧ a < s.i.toNat + storedBytes i) → Memory.read t.mem a = Memory.read s.mem a

/-- The rest of the state: I changes only by ANNN, FX1E and FX29; SP only by 2NNN and 00EE, a stack entry only by 2NNN and
only the one at SP; DT only by FX15, ST only by FX18; pixels and the dirty flag only by 00E0 and DXYN, which set the flag;
the key state never; the draws only by CXNN; the run state and the fault record only by a fault (R37, R38, R40, R43, R44,
R46, R302). -/
def Obligations.SpecialStateFrame : Prop :=
  ∀ (i : Instr) (s t : State), exec i s = .next t →
    (t.i ≠ s.i → (∃ nnn, i = .ldI nnn) ∨ (∃ x, i = .addIVx x) ∨ ∃ x, i = .ldFVx x) ∧
    (t.sp ≠ s.sp → i = .ret ∨ ∃ nnn, i = .call nnn) ∧
    (∀ k : Fin 16, t.stack[k] ≠ s.stack[k] → (∃ nnn, i = .call nnn) ∧ k.val = s.sp.val) ∧
    (t.dt ≠ s.dt → ∃ x, i = .ldDtVx x) ∧ (t.st ≠ s.st → ∃ x, i = .ldStVx x) ∧
    ((t.fb ≠ s.fb ∨ t.dirty ≠ s.dirty) → t.dirty = true ∧ (i = .cls ∨ ∃ x y n, i = .drw x y n)) ∧
    t.keys = s.keys ∧
    ((t.draws ≠ s.draws ∨ t.drawCount ≠ s.drawCount) → ∃ x nn, i = .rnd x nn) ∧
    ((t.run ≠ s.run ∨ t.fault ≠ s.fault) → ownFault i s ≠ none)
end

