-- ==== Sys2Proof/Laws/Config.lean ====
section
/-! SUPPORT. The derived parameters of R10 agree with the ones they are derived from, and the word types with their widths. -/

namespace Sys2Proof.Config

/-- The derivations of R10's ground column. -/
theorem derived_parameters :
    addrMax = memSize - 1 ∧ maxRom = memSize - programBase ∧ numGlyphs = (fontEnd - fontBase) / glyphBytes ∧
    fontSize = numGlyphs * glyphBytes ∧ fontSize = fontEnd - fontBase ∧ rngCount = rngMax - rngMin + 1 := by decide

/-- A stack entry holds a PC value, and a register's byte is a byte of memory and of a timer (R10, R38). -/
theorem widths_agree : stackEntryWidth = pcWidth ∧ iWidth = pcWidth ∧ timerWidth = vWidth ∧ pcWidth = 2 * vWidth := by decide

end Sys2Proof.Config
end

