-- ==== Sys2Proof/Laws/Decode.lean ====
section
/-! SUPPORT. The fields of a word built from fields, for each format of R92. -/

namespace Sys2Proof

/-! ## Format `NNN` -/

@[simp] theorem family_wordNNN (f : BitVec 4) (nnn : Addr) : family (wordNNN f nnn) = f.toNat := by
  simp only [family, wordNNN]
  congr 1
  ext i hi
  simp only [BitVec.getElem_extractLsb', BitVec.getLsbD_append]
  simp [BitVec.getLsbD_eq_getElem hi]

@[simp] theorem fieldNNN_wordNNN (f : BitVec 4) (nnn : Addr) : fieldNNN (wordNNN f nnn) = nnn := by
  simp only [fieldNNN, wordNNN]
  ext i hi
  simp only [BitVec.getElem_extractLsb', BitVec.getLsbD_append]
  simp [hi]

/-! ## Formats `XNN` and `XSS` -/

@[simp] theorem family_wordXNN (f : BitVec 4) (x : Reg) (nn : Byte) : family (wordXNN f x nn) = f.toNat := by
  simp only [family, wordXNN]
  congr 1
  ext i hi
  simp only [BitVec.getElem_extractLsb', BitVec.getLsbD_append]
  simp [show ¬(12 + i < 8) by omega, show ¬(12 + i - 8 < 4) by omega, show 12 + i - 8 - 4 = i by omega, hi]

@[simp] theorem fieldX_wordXNN (f : BitVec 4) (x : Reg) (nn : Byte) : fieldX (wordXNN f x nn) = x := by
  have h : (wordXNN f x nn).extractLsb' 8 4 = BitVec.ofFin (w := 4) x := by
    simp only [wordXNN]
    ext i hi
    simp only [BitVec.getElem_extractLsb', BitVec.getLsbD_append]
    simp [show ¬(8 + i < 8) by omega, show 8 + i - 8 = i by omega, hi]
  simp only [fieldX, h]

@[simp] theorem fieldNN_wordXNN (f : BitVec 4) (x : Reg) (nn : Byte) : fieldNN (wordXNN f x nn) = nn := by
  simp only [fieldNN, wordXNN]
  ext i hi
  simp only [BitVec.getElem_extractLsb', BitVec.getLsbD_append]
  simp [hi]

/-! ## Formats `XYS` and `XYN` -/

@[simp] theorem family_wordXYN (f : BitVec 4) (x y : Reg) (n : Nibble) : family (wordXYN f x y n) = f.toNat := by
  simp only [family, wordXYN]
  congr 1
  ext i hi
  simp only [BitVec.getElem_extractLsb', BitVec.getLsbD_append]
  simp [show ¬(12 + i < 4) by omega, show ¬(12 + i - 4 < 4) by omega, show ¬(12 + i - 4 - 4 < 4) by omega,
    show 12 + i - 4 - 4 - 4 = i by omega, hi]

@[simp] theorem fieldX_wordXYN (f : BitVec 4) (x y : Reg) (n : Nibble) : fieldX (wordXYN f x y n) = x := by
  have h : (wordXYN f x y n).extractLsb' 8 4 = BitVec.ofFin (w := 4) x := by
    simp only [wordXYN]
    ext i hi
    simp only [BitVec.getElem_extractLsb', BitVec.getLsbD_append]
    simp [show ¬(8 + i < 4) by omega, show ¬(8 + i - 4 < 4) by omega, show 8 + i - 4 - 4 = i by omega, hi]
  simp only [fieldX, h]

@[simp] theorem fieldY_wordXYN (f : BitVec 4) (x y : Reg) (n : Nibble) : fieldY (wordXYN f x y n) = y := by
  have h : (wordXYN f x y n).extractLsb' 4 4 = BitVec.ofFin (w := 4) y := by
    simp only [wordXYN]
    ext i hi
    simp only [BitVec.getElem_extractLsb', BitVec.getLsbD_append]
    simp [show ¬(4 + i < 4) by omega, show 4 + i - 4 = i by omega, hi]
  simp only [fieldY, h]

@[simp] theorem fieldN_wordXYN (f : BitVec 4) (x y : Reg) (n : Nibble) : fieldN (wordXYN f x y n) = n := by
  simp only [fieldN, wordXYN]
  ext i hi
  simp only [BitVec.getElem_extractLsb', BitVec.getLsbD_append]
  simp [hi]

/-! ## A word is rebuilt from its fields -/

theorem ofFin_toFin (z : BitVec 4) : BitVec.ofFin (w := 4) z.toFin = z := rfl

theorem wordNNN_fields (op : Word) : wordNNN (op.extractLsb' 12 4) (fieldNNN op) = op := by
  simp only [fieldNNN, wordNNN]
  refine BitVec.eq_of_getLsbD_eq fun i hi => ?_
  simp only [BitVec.getLsbD_append, BitVec.getLsbD_extractLsb']
  split
  · simp_all
  · simp [show 12 + (i - 12) = i by omega, show i - 12 < 4 by omega]

theorem wordXNN_fields (op : Word) : wordXNN (op.extractLsb' 12 4) (fieldX op) (fieldNN op) = op := by
  simp only [fieldX, fieldNN, wordXNN, ofFin_toFin]
  refine BitVec.eq_of_getLsbD_eq fun i hi => ?_
  simp only [BitVec.getLsbD_append, BitVec.getLsbD_extractLsb']
  split
  · simp_all
  · split
    · simp_all [show 8 + (i - 8) = i by omega]
    · simp [show 12 + (i - 8 - 4) = i by omega, show i - 8 - 4 < 4 by omega]

theorem wordXYN_fields (op : Word) :
    wordXYN (op.extractLsb' 12 4) (fieldX op) (fieldY op) (fieldN op) = op := by
  simp only [fieldX, fieldY, fieldN, wordXYN, ofFin_toFin]
  refine BitVec.eq_of_getLsbD_eq fun i hi => ?_
  simp only [BitVec.getLsbD_append, BitVec.getLsbD_extractLsb']
  split
  · simp_all
  · split
    · simp_all [show 4 + (i - 4) = i by omega]
    · split
      · simp_all [show 8 + (i - 4 - 4) = i by omega]
      · simp [show 12 + (i - 4 - 4 - 4) = i by omega, show i - 4 - 4 - 4 < 4 by omega]

end Sys2Proof
end

