-- ==== Sys2Proof/Laws/Display.lean ====
section
/-! SUPPORT. The laws of the framebuffer and of the sprite draw: what the two loops of DXYN leave. -/

namespace Sys2Proof.Machine

open Sys2Proof.Safety

theorem pixel_off_grid (fb : Framebuffer) (x y : Nat) (h : ¬(x < 64 ∧ y < 32)) : pixel fb x y = false := by
  unfold pixel
  split
  · exact BitVec.getLsbD_of_ge _ _ (by omega)
  · rfl

@[simp] theorem pixel_blankScreen (x y : Nat) : pixel blankScreen x y = false := by
  simp [pixel, blankScreen]

/-- Inverting one pixel of the grid inverts that pixel and no other. -/
theorem pixel_flipPixel (fb : Framebuffer) (x y px py : Nat) (hx : x < 64) (hy : y < 32) :
    pixel (flipPixel fb x y) px py = (pixel fb px py ^^ decide (px = x ∧ py = y)) := by
  unfold pixel flipPixel
  simp only [hy, dif_pos]
  by_cases hpy : py < 32
  · simp only [hpy, dif_pos]
    by_cases h : y = py
    · subst h
      simp [BitVec.getLsbD_twoPow, hx, eq_comm]
    · rw [Vector.getElem_set_ne _ _ h]
      simp [Ne.symm h]
  · simp [hpy, show ¬ py = y by omega]

/-- The bit under (px, py) of the sprite byte `row` drawn on row `py0` from column `x0`, for its first `k` columns. -/
def rowBit (row : Byte) (x0 py0 k px py : Nat) : Bool :=
  decide (py = py0 ∧ x0 ≤ px ∧ px < x0 + k) && row.getLsbD (7 - (px - x0))

/-- One plotted pixel: inverted if it is on the grid, and a collision if it was set. -/
theorem plot_spec (d : Framebuffer × Bool) (x y : Nat) :
    (∀ px py, px < 64 → py < 32 → pixel (plot d x y).1 px py = (pixel d.1 px py ^^ decide (px = x ∧ py = y))) ∧
      (plot d x y).2 = (d.2 || pixel d.1 x y) := by
  unfold plot
  split
  · rename_i h
    exact ⟨fun px py _ _ => pixel_flipPixel _ _ _ _ _ h.1 h.2, rfl⟩
  · rename_i h
    refine ⟨fun px py hx hy => ?_, ?_⟩
    · rw [decide_eq_false (by rintro ⟨rfl, rfl⟩; exact h ⟨hx, hy⟩)]; simp
    · rw [pixel_off_grid d.1 x y h]; simp

/-- A draw from `d` to `d'` inverts exactly the grid pixels of `bit`, and collides when one of them was set. -/
def Inverts (bit : Nat → Nat → Bool) (d d' : Framebuffer × Bool) : Prop :=
  (∀ px py, px < 64 → py < 32 → pixel d'.1 px py = (pixel d.1 px py ^^ bit px py)) ∧
    (d'.2 = true ↔ d.2 = true ∨ ∃ px py, px < 64 ∧ py < 32 ∧ bit px py = true ∧ pixel d.1 px py = true)

theorem Inverts.refl (d : Framebuffer × Bool) : Inverts (fun _ _ => false) d d := by
  simp [Inverts]

/-- Two draws that touch no pixel in common make one draw. -/
theorem Inverts.trans {b b' c : Nat → Nat → Bool} {d d' d'' : Framebuffer × Bool} (h : Inverts b d d')
    (h' : Inverts b' d' d'') (disj : ∀ px py, b px py = true → b' px py = false)
    (hc : ∀ px py, px < 64 → py < 32 → c px py = (b px py || b' px py)) : Inverts c d d'' := by
  refine ⟨fun px py hx hy => ?_, ?_⟩
  · rw [h'.1 px py hx hy, h.1 px py hx hy, hc px py hx hy]
    have := disj px py
    cases hb : b px py <;> simp_all
  · rw [h'.2, h.2]
    constructor
    · rintro ((hd | ⟨px, py, hx, hy, hb, hp⟩) | ⟨px, py, hx, hy, hb, hp⟩)
      · exact .inl hd
      · exact .inr ⟨px, py, hx, hy, by simp [hc px py hx hy, hb], hp⟩
      · refine .inr ⟨px, py, hx, hy, by simp [hc px py hx hy, hb], ?_⟩
        rw [h.1 px py hx hy] at hp
        have := disj px py
        cases hb' : b px py <;> simp_all
    · rintro (hd | ⟨px, py, hx, hy, hb, hp⟩)
      · exact .inl (.inl hd)
      · rw [hc px py hx hy, Bool.or_eq_true] at hb
        rcases hb with hb | hb
        · exact .inl (.inr ⟨px, py, hx, hy, hb, hp⟩)
        · by_cases hb' : b px py = true
          · exact .inl (.inr ⟨px, py, hx, hy, hb', hp⟩)
          · refine .inr ⟨px, py, hx, hy, hb, ?_⟩
            rw [h.1 px py hx hy]; simp_all

/-- The first `k` columns of a sprite row. -/
theorem drawRow_prefix (row : Byte) (x0 py : Nat) (d : Framebuffer × Bool) (k : Nat) :
    Inverts (rowBit row x0 py k) d
      ((List.range k).foldl (fun d c => if row.getLsbD (7 - c) then plot d (x0 + c) py else d) d) := by
  induction k with
  | zero =>
    have : rowBit row x0 py 0 = fun _ _ => false := by
      funext a b; simp [rowBit, show ¬(b = py ∧ x0 ≤ a ∧ a < x0) by omega]
    simpa [this] using Inverts.refl d
  | succ k ih =>
    rw [List.range_succ, List.foldl_append]
    simp only [List.foldl_cons, List.foldl_nil]
    generalize (List.range k).foldl _ d = e at ih ⊢
    by_cases hr : row.getLsbD (7 - k) = true
    · rw [if_pos hr]
      refine ih.trans (b' := fun px q => decide (px = x0 + k ∧ q = py)) ⟨?_, ?_⟩ ?_ ?_
      · exact (plot_spec e (x0 + k) py).1
      · rw [(plot_spec e (x0 + k) py).2, Bool.or_eq_true]
        refine or_congr_right ⟨fun hp => ?_, ?_⟩
        · by_cases hg : x0 + k < 64 ∧ py < 32
          · exact ⟨_, _, hg.1, hg.2, by simp, hp⟩
          · rw [pixel_off_grid _ _ _ hg] at hp; simp at hp
        · rintro ⟨px, q, -, -, hb, hp⟩
          obtain ⟨rfl, rfl⟩ := of_decide_eq_true hb
          exact hp
      · intro px q hb
        simp only [rowBit, Bool.and_eq_true, decide_eq_true_eq] at hb
        exact decide_eq_false (by omega)
      · intro px q _ _
        simp only [rowBit]
        by_cases h1 : px = x0 + k
        · subst h1
          by_cases h2 : q = py <;> simp [h2, hr]
        · have : (q = py ∧ x0 ≤ px ∧ px < x0 + (k + 1)) ↔ (q = py ∧ x0 ≤ px ∧ px < x0 + k) := by omega
          simp [h1, this]
    · rw [if_neg hr]
      refine ih.trans (b' := fun _ _ => false) (Inverts.refl e) (by simp) ?_
      intro px q _ _
      simp only [rowBit, Bool.or_false]
      by_cases h1 : px = x0 + k
      · subst h1; simp [hr]
      · have : (q = py ∧ x0 ≤ px ∧ px < x0 + (k + 1)) ↔ (q = py ∧ x0 ≤ px ∧ px < x0 + k) := by omega
        simp [this]

/-- A sprite of `n` rows inverts the grid pixels under its set bits, and collides when one of them was set (R243-R246). -/
theorem drawSprite_spec (m : Memory) (a x0 y0 n : Nat) (d : Framebuffer × Bool) :
    Inverts (underSetBit m a x0 y0 n) d (drawSprite m a x0 y0 n d) := by
  unfold drawSprite
  induction n with
  | zero =>
    have : underSetBit m a x0 y0 0 = fun _ _ => false := by
      funext p q; simp [underSetBit, show ¬(x0 ≤ p ∧ p < x0 + 8 ∧ y0 ≤ q ∧ q < y0) by omega]
    simpa [this] using Inverts.refl d
  | succ n ih =>
    rw [List.range_succ, List.foldl_append]
    simp only [List.foldl_cons, List.foldl_nil]
    refine ih.trans (drawRow_prefix (Memory.read m (a + n)) x0 (y0 + n) _ 8) ?_ ?_
    · intro px q hb
      simp only [underSetBit, Bool.and_eq_true, decide_eq_true_eq] at hb
      simp [rowBit, show ¬(q = y0 + n ∧ x0 ≤ px ∧ px < x0 + 8) by omega]
    · intro px q _ _
      simp only [underSetBit, rowBit]
      by_cases h1 : q = y0 + n
      · subst h1
        simp
      · have : (x0 ≤ px ∧ px < x0 + 8 ∧ y0 ≤ q ∧ q < y0 + (n + 1)) ↔
            (x0 ≤ px ∧ px < x0 + 8 ∧ y0 ≤ q ∧ q < y0 + n) := by omega
        simp [h1, this]

end Sys2Proof.Machine
end

