-- ==== Sys2Proof/Laws/Memory.lean ====
section
/-! SUPPORT. The laws of memory: what a read gives after a write, and that every operation keeps the canonical form. -/

namespace Sys2Proof.Machine

theorem Memory.read_nil (a : Nat) : Memory.read [] a = Memory.resetByte a := rfl

/-- Putting a cell into a memory that does not list its address: that address reads the byte, every other as before. -/
theorem Memory.read_insertCell (m : Memory) (a : Nat) (b : Byte) (h : ∀ c ∈ m, c.1 ≠ a) (a' : Nat) :
    Memory.read (Memory.insertCell a b m) a' = if a' = a then b else Memory.read m a' := by
  induction m with
  | nil =>
    simp only [Memory.insertCell]
    split <;> simp only [Memory.read]
    · rename_i hb; split <;> simp_all
    · by_cases ha : a' = a
      · simp [ha]
      · simp [ha, Ne.symm ha]
  | cons c m ih =>
    have hc : c.1 ≠ a := h c (by simp)
    have hm : ∀ d ∈ m, d.1 ≠ a := fun d hd => h d (by simp [hd])
    have absent : Memory.read (c :: m) a = Memory.resetByte a := by
      have none : ∀ l : Memory, (∀ d ∈ l, d.1 ≠ a) → Memory.read l a = Memory.resetByte a := by
        intro l hl
        induction l with
        | nil => rfl
        | cons d l ihl =>
          simp only [Memory.read, if_neg (hl d (by simp))]
          exact ihl fun e he => hl e (by simp [he])
      exact none (c :: m) h
    simp only [Memory.insertCell]
    split
    · simp only [Memory.read, ih hm]
      by_cases h1 : c.1 = a'
      · simp [h1, show a' ≠ a from h1 ▸ hc]
      · simp [h1]
    · split
      · rename_i hb
        by_cases ha : a' = a
        · simp only [ha, if_true, absent, hb]
        · simp [ha]
      · by_cases ha : a' = a
        · simp [Memory.read, ha]
        · simp [Memory.read, ha, Ne.symm ha]

/-- Taking the entry of one address out changes no other address. -/
theorem Memory.read_filter_ne (m : Memory) (a a' : Nat) (h : a' ≠ a) :
    Memory.read (m.filter fun c => c.1 != a) a' = Memory.read m a' := by
  induction m with
  | nil => rfl
  | cons c m ih =>
    by_cases hc : c.1 = a
    · simp [hc, Memory.read, ih, Ne.symm h]
    · simp [hc, Memory.read, ih]

/-- A read after a write: the byte written at its address, the old byte at every other (R72). -/
theorem Memory.read_write (m : Memory) (a : Nat) (b : Byte) (a' : Nat) :
    Memory.read (Memory.write m a b) a' = if a' = a then b else Memory.read m a' := by
  unfold Memory.write
  rw [Memory.read_insertCell _ _ _ (by simp)]
  by_cases h : a' = a
  · simp [h]
  · simp [h, Memory.read_filter_ne _ _ _ h]

/-- A read after a block store: the stored bytes inside the block, the old bytes outside (R66, R72). -/
theorem Memory.read_writeBytes (bs : List Byte) (m : Memory) (a a' : Nat) :
    Memory.read (Memory.writeBytes m a bs) a' =
      if a ≤ a' ∧ a' < a + bs.length then bs.getD (a' - a) 0 else Memory.read m a' := by
  induction bs generalizing m a with
  | nil => simp [Memory.writeBytes, show ¬(a ≤ a' ∧ a' < a) by omega]
  | cons b bs ih =>
    rw [Memory.writeBytes, ih, Memory.read_write]
    by_cases h1 : a' = a
    · subst h1; simp
    · by_cases h2 : a + 1 ≤ a' ∧ a' < a + 1 + bs.length
      · rw [if_pos h2, if_pos ⟨by omega, by simp; omega⟩]
        rw [show a' - a = (a' - (a + 1)) + 1 by omega]; rfl
      · rw [if_neg h2, if_neg h1, if_neg (by simp; omega)]

/-- What the canonical form says, entry by entry. -/
theorem Memory.wf_iff (m : Memory) :
    Memory.wf m = true ↔
      m.Pairwise (fun c d => c.1 < d.1) ∧ ∀ c ∈ m, c.1 < 4096 ∧ c.2 ≠ Memory.resetByte c.1 := by
  simp [Memory.wf, List.all_eq_true]

theorem Memory.mem_insertCell {m : Memory} {a : Nat} {b : Byte} {c : Host.Cell}
    (h : c ∈ Memory.insertCell a b m) : c ∈ m ∨ (c = (a, b) ∧ b ≠ Memory.resetByte a) := by
  induction m with
  | nil =>
    simp only [Memory.insertCell] at h
    split at h
    · simp at h
    · rename_i hb; simp at h; exact .inr ⟨h, hb⟩
  | cons d m ih =>
    simp only [Memory.insertCell] at h
    split at h
    · rcases List.mem_cons.mp h with h | h
      · exact .inl (by simp [h])
      · exact (ih h).imp_left (by simp; exact .inr)
    · split at h
      · exact .inl h
      · rename_i hb
        rcases List.mem_cons.mp h with h | h
        · exact .inr ⟨h, hb⟩
        · exact .inl h

theorem Memory.insertCell_sorted {m : Memory} {a : Nat} {b : Byte} (hs : m.Pairwise fun c d => c.1 < d.1)
    (h : ∀ c ∈ m, c.1 ≠ a) : (Memory.insertCell a b m).Pairwise fun c d => c.1 < d.1 := by
  induction m with
  | nil => simp only [Memory.insertCell]; split <;> simp
  | cons c m ih =>
    have hc : c.1 ≠ a := h c (by simp)
    obtain ⟨h1, h2⟩ := List.pairwise_cons.mp hs
    simp only [Memory.insertCell]
    split
    · rename_i hlt
      refine List.pairwise_cons.mpr ⟨fun d hd => ?_, ih h2 fun d hd => h d (by simp [hd])⟩
      rcases Memory.mem_insertCell hd with hd | ⟨rfl, -⟩
      · exact h1 d hd
      · exact hlt
    · rename_i hlt
      split
      · exact hs
      · refine List.pairwise_cons.mpr ⟨fun d hd => ?_, hs⟩
        rcases List.mem_cons.mp hd with rfl | hd
        · change a < d.1; omega
        · have := h1 d hd; change a < d.1; omega

/-- A write inside memory keeps the canonical form. -/
theorem Memory.write_wf {m : Memory} (hm : Memory.wf m = true) {a : Nat} (ha : a < 4096) (b : Byte) :
    Memory.wf (Memory.write m a b) = true := by
  rw [Memory.wf_iff] at hm ⊢
  refine ⟨Memory.insertCell_sorted (hm.1.filter _) (by simp), fun c hc => ?_⟩
  rcases Memory.mem_insertCell hc with hc | ⟨rfl, hb⟩
  · exact hm.2 c (List.mem_filter.mp hc).1
  · exact ⟨ha, hb⟩

/-- A block store inside memory keeps the canonical form. -/
theorem Memory.writeBytes_wf (bs : List Byte) {m : Memory} (hm : Memory.wf m = true) {a : Nat}
    (ha : a + bs.length ≤ 4096) : Memory.wf (Memory.writeBytes m a bs) = true := by
  induction bs generalizing m a with
  | nil => exact hm
  | cons b bs ih =>
    simp only [List.length_cons] at ha
    exact ih (Memory.write_wf hm (by omega) b) (by omega)

/-- The memory of the reset state is in canonical form. -/
theorem State.reset_mem_wf : Memory.wf State.reset.mem = true := by decide

/-- The check of R67, as a bound. -/
theorem memCheck_iff (a n : Nat) : memCheck a n = true ↔ (n = 0 ∨ a + n - 1 ≤ 0xFFF) := by simp [memCheck]

/-! ## The blocks that instructions store and load -/

@[simp] theorem bcdDigits_length (b : Byte) : (bcdDigits b).length = 3 := rfl

@[simp] theorem State.regsUpTo_length (s : State) (x : Reg) : (s.regsUpTo x).length = x.val + 1 := by
  simp [State.regsUpTo]

/-- The k-th of the registers V0 to VX is Vk. -/
theorem State.regsUpTo_getD (s : State) (x k : Reg) (h : k ≤ x) : (s.regsUpTo x).getD k.val 0 = s.v[k] := by
  have hk : k.val < x.val + 1 := by have := Fin.le_def.mp h; omega
  simp [State.regsUpTo, List.getD_eq_getElem?_getD, hk]

/-- The registers after a block load: the loaded ones from memory, the others as before (R232, R233). -/
theorem loadRegs_getElem (m : Memory) (a n : Nat) (v : Vector Byte 16) (k : Reg) :
    (loadRegs m a n v)[k] = if k.val < n then Memory.read m (a + k.val) else v[k] := by
  induction n with
  | zero => simp [loadRegs]
  | succ n ih =>
    simp only [loadRegs, Fin.getElem_fin, Vector.getElem_setIfInBounds] at ih ⊢
    by_cases h : n = k.val
    · simp [h]
    · rw [if_neg h, ih]
      by_cases h2 : k.val < n
      · rw [if_pos h2, if_pos (by omega)]
      · rw [if_neg h2, if_neg (by omega)]

end Sys2Proof.Machine
end

