-- ==== Sys2Proof/Laws/Load.lean ====
section
/-! SUPPORT. What a load does, for any font (R11, R350, R351), and that the default font is what unlisted memory reads. -/

namespace Sys2Proof.Machine

/-- Writing the byte that an unlisted address reads as leaves the empty list. -/
theorem Memory.writeBytes_resetByte (bs : List Byte) (a : Nat)
    (h : ∀ k, k < bs.length → bs.getD k 0 = Memory.resetByte (a + k)) : Memory.writeBytes [] a bs = [] := by
  induction bs generalizing a with
  | nil => rfl
  | cons b bs ih =>
    have hb : b = Memory.resetByte a := by simpa using h 0 (by simp)
    have hw : Memory.write [] a b = [] := by simp [Memory.write, Memory.insertCell, hb]
    rw [Memory.writeBytes, hw]
    refine ih (a + 1) fun k hk => ?_
    have hk' := h (k + 1) (by simp; omega)
    rw [show a + 1 + k = a + (k + 1) by omega, ← hk']
    rfl

/-- The default font is the contents of the empty list, so that reset memory lists nothing. -/
theorem loadedMemory_default (bytes : List Byte) : loadedMemory fontData bytes = Memory.writeBytes [] 0x200 bytes := by
  rw [loadedMemory, Memory.writeBytes_resetByte]
  show ∀ k, k < 80 → fontBytes.getD k 0 = Memory.resetByte (0x050 + k)
  intro k hk
  rw [Memory.resetByte, if_pos ⟨by simp, by simp; omega⟩]
  simp

/-- A byte of memory after a load: the program's, else the font's, else 0x00 (R350). -/
theorem loadedMemory_read (font : Font) (bytes : List Byte) (a : Nat) :
    Memory.read (loadedMemory font bytes) a =
      if 0x200 ≤ a ∧ a < 0x200 + bytes.length then bytes.getD (a - 0x200) 0
      else if 0x050 ≤ a ∧ a < 0x0A0 then font.toList.getD (a - 0x050) 0 else 0 := by
  have hl : Config.fontBase + font.toList.length = 0x0A0 := by simp
  simp only [loadedMemory, Memory.read_writeBytes, Memory.read_nil, hl]
  split
  · rfl
  · split
    · rfl
    · rename_i h
      simp only [Memory.resetByte, if_neg h]

/-- Memory after a load that fits is in canonical form. -/
theorem loadedMemory_wf (font : Font) (bytes : List Byte) (h : bytes.length ≤ 3584) :
    Memory.wf (loadedMemory font bytes) = true :=
  Memory.writeBytes_wf bytes (Memory.writeBytes_wf font.toList (m := []) rfl (by simp)) (by simp; omega)

/-- A load that fits: the reset state with the loaded memory, and the environment's fields as they were (R350). -/
theorem State.loadProgram_loaded (s : State) (bytes : List Byte) (font : Font) (h : bytes.length ≤ 3584) :
    s.loadProgram bytes font =
      ({ State.reset with
          mem := loadedMemory font bytes, keys := s.keys, draws := s.draws, drawCount := s.drawCount }, .loaded) := by
  rw [State.loadProgram, if_neg (by simp; omega)]

/-- A load that does not fit changes nothing (R351). -/
theorem State.loadProgram_rejected (s : State) (bytes : List Byte) (font : Font) (h : bytes.length > 3584) :
    s.loadProgram bytes font = (s, .rejected) := by
  rw [State.loadProgram, if_pos (by simp; omega)]

end Sys2Proof.Machine
end

