-- ==== Sys2Proof/Laws/PerInstr.lean ====
section
/-! SUPPORT. Statements for all instructions, one lemma a constructor. -/

namespace Sys2Proof.Laws.TableRow

/-- The instruction's word lies in its row of spec/opcode_table.json: its fixed bits are the row's. -/
def Statement (i : Instr) : Prop := encode i &&& tableMask i = tableMatch i

/-! ## The fixed bits of each format -/

theorem fixed_NNN (f : BitVec 4) (nnn : Addr) : wordNNN f nnn &&& 0xF000 = f ++ 0x000#12 := by
  refine BitVec.eq_of_getLsbD_eq fun i hi => ?_
  simp only [wordNNN, BitVec.getLsbD_and, BitVec.getLsbD_append]
  rcases i with _|_|_|_|_|_|_|_|_|_|_|_|_|_|_|_|i <;> simp

theorem fixed_XNN (f : BitVec 4) (x : Reg) (nn : Byte) : wordXNN f x nn &&& 0xF000 = f ++ 0x000#12 := by
  refine BitVec.eq_of_getLsbD_eq fun i hi => ?_
  simp only [wordXNN, BitVec.getLsbD_and, BitVec.getLsbD_append]
  rcases i with _|_|_|_|_|_|_|_|_|_|_|_|_|_|_|_|i <;> simp

theorem fixed_XSS (f : BitVec 4) (x : Reg) (nn : Byte) : wordXNN f x nn &&& 0xF0FF = f ++ 0x0#4 ++ nn := by
  refine BitVec.eq_of_getLsbD_eq fun i hi => ?_
  simp only [wordXNN, BitVec.getLsbD_and, BitVec.getLsbD_append]
  rcases i with _|_|_|_|_|_|_|_|_|_|_|_|_|_|_|_|i <;> simp

theorem fixed_XYS (f : BitVec 4) (x y : Reg) (n : Nibble) : wordXYN f x y n &&& 0xF00F = f ++ 0x00#8 ++ n := by
  refine BitVec.eq_of_getLsbD_eq fun i hi => ?_
  simp only [wordXYN, BitVec.getLsbD_and, BitVec.getLsbD_append]
  rcases i with _|_|_|_|_|_|_|_|_|_|_|_|_|_|_|_|i <;> simp

theorem fixed_XYN (f : BitVec 4) (x y : Reg) (n : Nibble) : wordXYN f x y n &&& 0xF000 = f ++ 0x000#12 := by
  refine BitVec.eq_of_getLsbD_eq fun i hi => ?_
  simp only [wordXYN, BitVec.getLsbD_and, BitVec.getLsbD_append]
  rcases i with _|_|_|_|_|_|_|_|_|_|_|_|_|_|_|_|i <;> simp

/-! ## The constructors -/

theorem sys (nnn : Addr) : Statement (.sys nnn) := (fixed_NNN _ _).trans rfl
theorem cls : Statement .cls := rfl
theorem ret : Statement .ret := rfl
theorem jp (nnn : Addr) : Statement (.jp nnn) := (fixed_NNN _ _).trans rfl
theorem call (nnn : Addr) : Statement (.call nnn) := (fixed_NNN _ _).trans rfl
theorem seImm (x : Reg) (nn : Byte) : Statement (.seImm x nn) := (fixed_XNN _ _ _).trans rfl
theorem sneImm (x : Reg) (nn : Byte) : Statement (.sneImm x nn) := (fixed_XNN _ _ _).trans rfl
theorem seReg (x y : Reg) : Statement (.seReg x y) := (fixed_XYS _ _ _ _).trans rfl
theorem ldImm (x : Reg) (nn : Byte) : Statement (.ldImm x nn) := (fixed_XNN _ _ _).trans rfl
theorem addImm (x : Reg) (nn : Byte) : Statement (.addImm x nn) := (fixed_XNN _ _ _).trans rfl
theorem ldReg (x y : Reg) : Statement (.ldReg x y) := (fixed_XYS _ _ _ _).trans rfl
theorem orReg (x y : Reg) : Statement (.orReg x y) := (fixed_XYS _ _ _ _).trans rfl
theorem andReg (x y : Reg) : Statement (.andReg x y) := (fixed_XYS _ _ _ _).trans rfl
theorem xorReg (x y : Reg) : Statement (.xorReg x y) := (fixed_XYS _ _ _ _).trans rfl
theorem addReg (x y : Reg) : Statement (.addReg x y) := (fixed_XYS _ _ _ _).trans rfl
theorem subReg (x y : Reg) : Statement (.subReg x y) := (fixed_XYS _ _ _ _).trans rfl
theorem shr (x y : Reg) : Statement (.shr x y) := (fixed_XYS _ _ _ _).trans rfl
theorem subnReg (x y : Reg) : Statement (.subnReg x y) := (fixed_XYS _ _ _ _).trans rfl
theorem shl (x y : Reg) : Statement (.shl x y) := (fixed_XYS _ _ _ _).trans rfl
theorem sneReg (x y : Reg) : Statement (.sneReg x y) := (fixed_XYS _ _ _ _).trans rfl
theorem ldI (nnn : Addr) : Statement (.ldI nnn) := (fixed_NNN _ _).trans rfl
theorem jpV0 (nnn : Addr) : Statement (.jpV0 nnn) := (fixed_NNN _ _).trans rfl
theorem rnd (x : Reg) (nn : Byte) : Statement (.rnd x nn) := (fixed_XNN _ _ _).trans rfl
theorem drw (x y : Reg) (n : Nibble) : Statement (.drw x y n) := (fixed_XYN _ _ _ _).trans rfl
theorem skp (x : Reg) : Statement (.skp x) := (fixed_XSS _ _ _).trans rfl
theorem sknp (x : Reg) : Statement (.sknp x) := (fixed_XSS _ _ _).trans rfl
theorem ldVxDt (x : Reg) : Statement (.ldVxDt x) := (fixed_XSS _ _ _).trans rfl
theorem ldVxK (x : Reg) : Statement (.ldVxK x) := (fixed_XSS _ _ _).trans rfl
theorem ldDtVx (x : Reg) : Statement (.ldDtVx x) := (fixed_XSS _ _ _).trans rfl
theorem ldStVx (x : Reg) : Statement (.ldStVx x) := (fixed_XSS _ _ _).trans rfl
theorem addIVx (x : Reg) : Statement (.addIVx x) := (fixed_XSS _ _ _).trans rfl
theorem ldFVx (x : Reg) : Statement (.ldFVx x) := (fixed_XSS _ _ _).trans rfl
theorem ldBVx (x : Reg) : Statement (.ldBVx x) := (fixed_XSS _ _ _).trans rfl
theorem ldMemVx (x : Reg) : Statement (.ldMemVx x) := (fixed_XSS _ _ _).trans rfl
theorem ldVxMem (x : Reg) : Statement (.ldVxMem x) := (fixed_XSS _ _ _).trans rfl

end Sys2Proof.Laws.TableRow
end

