-- ==== Sys2Proof/Laws/State.lean ====
section
/-! SUPPORT. The fields of a state after each update, one lemma a field, so that no later proof unfolds a record update. -/

namespace Sys2Proof.Machine

variable (s : State)

/-! ## `State.setReg` -/

@[simp] theorem State.setReg_mem (x : Reg) (b : Byte) : (s.setReg x b).mem = s.mem := rfl
@[simp] theorem State.setReg_v (x : Reg) (b : Byte) : (s.setReg x b).v = s.v.set x b := rfl
@[simp] theorem State.setReg_i (x : Reg) (b : Byte) : (s.setReg x b).i = s.i := rfl
@[simp] theorem State.setReg_pc (x : Reg) (b : Byte) : (s.setReg x b).pc = s.pc := rfl
@[simp] theorem State.setReg_stack (x : Reg) (b : Byte) : (s.setReg x b).stack = s.stack := rfl
@[simp] theorem State.setReg_sp (x : Reg) (b : Byte) : (s.setReg x b).sp = s.sp := rfl
@[simp] theorem State.setReg_dt (x : Reg) (b : Byte) : (s.setReg x b).dt = s.dt := rfl
@[simp] theorem State.setReg_st (x : Reg) (b : Byte) : (s.setReg x b).st = s.st := rfl
@[simp] theorem State.setReg_fb (x : Reg) (b : Byte) : (s.setReg x b).fb = s.fb := rfl
@[simp] theorem State.setReg_dirty (x : Reg) (b : Byte) : (s.setReg x b).dirty = s.dirty := rfl
@[simp] theorem State.setReg_run (x : Reg) (b : Byte) : (s.setReg x b).run = s.run := rfl
@[simp] theorem State.setReg_fault (x : Reg) (b : Byte) : (s.setReg x b).fault = s.fault := rfl
@[simp] theorem State.setReg_keys (x : Reg) (b : Byte) : (s.setReg x b).keys = s.keys := rfl
@[simp] theorem State.setReg_draws (x : Reg) (b : Byte) : (s.setReg x b).draws = s.draws := rfl
@[simp] theorem State.setReg_drawCount (x : Reg) (b : Byte) : (s.setReg x b).drawCount = s.drawCount := rfl

/-! ## `State.jump` -/

@[simp] theorem State.jump_mem (w : Word) : (s.jump w).mem = s.mem := rfl
@[simp] theorem State.jump_v (w : Word) : (s.jump w).v = s.v := rfl
@[simp] theorem State.jump_i (w : Word) : (s.jump w).i = s.i := rfl
@[simp] theorem State.jump_pc (w : Word) : (s.jump w).pc = w := rfl
@[simp] theorem State.jump_stack (w : Word) : (s.jump w).stack = s.stack := rfl
@[simp] theorem State.jump_sp (w : Word) : (s.jump w).sp = s.sp := rfl
@[simp] theorem State.jump_dt (w : Word) : (s.jump w).dt = s.dt := rfl
@[simp] theorem State.jump_st (w : Word) : (s.jump w).st = s.st := rfl
@[simp] theorem State.jump_fb (w : Word) : (s.jump w).fb = s.fb := rfl
@[simp] theorem State.jump_dirty (w : Word) : (s.jump w).dirty = s.dirty := rfl
@[simp] theorem State.jump_run (w : Word) : (s.jump w).run = s.run := rfl
@[simp] theorem State.jump_fault (w : Word) : (s.jump w).fault = s.fault := rfl
@[simp] theorem State.jump_keys (w : Word) : (s.jump w).keys = s.keys := rfl
@[simp] theorem State.jump_draws (w : Word) : (s.jump w).draws = s.draws := rfl
@[simp] theorem State.jump_drawCount (w : Word) : (s.jump w).drawCount = s.drawCount := rfl

/-! ## `State.pop` -/

@[simp] theorem State.pop_mem : s.pop.mem = s.mem := rfl
@[simp] theorem State.pop_v : s.pop.v = s.v := rfl
@[simp] theorem State.pop_i : s.pop.i = s.i := rfl
@[simp] theorem State.pop_pc : s.pop.pc = s.pc := rfl
@[simp] theorem State.pop_stack : s.pop.stack = s.stack := rfl
@[simp] theorem State.pop_sp : s.pop.sp = ⟨s.sp.val - 1, by omega⟩ := rfl
@[simp] theorem State.pop_dt : s.pop.dt = s.dt := rfl
@[simp] theorem State.pop_st : s.pop.st = s.st := rfl
@[simp] theorem State.pop_fb : s.pop.fb = s.fb := rfl
@[simp] theorem State.pop_dirty : s.pop.dirty = s.dirty := rfl
@[simp] theorem State.pop_run : s.pop.run = s.run := rfl
@[simp] theorem State.pop_fault : s.pop.fault = s.fault := rfl
@[simp] theorem State.pop_keys : s.pop.keys = s.keys := rfl
@[simp] theorem State.pop_draws : s.pop.draws = s.draws := rfl
@[simp] theorem State.pop_drawCount : s.pop.drawCount = s.drawCount := rfl

/-! ## `State.push` -/

@[simp] theorem State.push_mem (w : Word) : (s.push w).mem = s.mem := rfl
@[simp] theorem State.push_v (w : Word) : (s.push w).v = s.v := rfl
@[simp] theorem State.push_i (w : Word) : (s.push w).i = s.i := rfl
@[simp] theorem State.push_pc (w : Word) : (s.push w).pc = s.pc := rfl
@[simp] theorem State.push_stack (w : Word) : (s.push w).stack = s.stack.setIfInBounds s.sp.val w := rfl
@[simp] theorem State.push_sp (w : Word) : (s.push w).sp = ⟨min (s.sp.val + 1) 16, by omega⟩ := rfl
@[simp] theorem State.push_dt (w : Word) : (s.push w).dt = s.dt := rfl
@[simp] theorem State.push_st (w : Word) : (s.push w).st = s.st := rfl
@[simp] theorem State.push_fb (w : Word) : (s.push w).fb = s.fb := rfl
@[simp] theorem State.push_dirty (w : Word) : (s.push w).dirty = s.dirty := rfl
@[simp] theorem State.push_run (w : Word) : (s.push w).run = s.run := rfl
@[simp] theorem State.push_fault (w : Word) : (s.push w).fault = s.fault := rfl
@[simp] theorem State.push_keys (w : Word) : (s.push w).keys = s.keys := rfl
@[simp] theorem State.push_draws (w : Word) : (s.push w).draws = s.draws := rfl
@[simp] theorem State.push_drawCount (w : Word) : (s.push w).drawCount = s.drawCount := rfl

/-! ## `State.useDraw` -/

@[simp] theorem State.useDraw_mem : s.useDraw.mem = s.mem := rfl
@[simp] theorem State.useDraw_v : s.useDraw.v = s.v := rfl
@[simp] theorem State.useDraw_i : s.useDraw.i = s.i := rfl
@[simp] theorem State.useDraw_pc : s.useDraw.pc = s.pc := rfl
@[simp] theorem State.useDraw_stack : s.useDraw.stack = s.stack := rfl
@[simp] theorem State.useDraw_sp : s.useDraw.sp = s.sp := rfl
@[simp] theorem State.useDraw_dt : s.useDraw.dt = s.dt := rfl
@[simp] theorem State.useDraw_st : s.useDraw.st = s.st := rfl
@[simp] theorem State.useDraw_fb : s.useDraw.fb = s.fb := rfl
@[simp] theorem State.useDraw_dirty : s.useDraw.dirty = s.dirty := rfl
@[simp] theorem State.useDraw_run : s.useDraw.run = s.run := rfl
@[simp] theorem State.useDraw_fault : s.useDraw.fault = s.fault := rfl
@[simp] theorem State.useDraw_keys : s.useDraw.keys = s.keys := rfl
@[simp] theorem State.useDraw_draws : s.useDraw.draws = s.draws.tail := rfl
@[simp] theorem State.useDraw_drawCount : s.useDraw.drawCount = s.drawCount + 1 := rfl

/-! ## `State.takeFault` -/

@[simp] theorem State.takeFault_mem (c : FaultCode) (op : Option Word) : (s.takeFault c op).mem = s.mem := rfl
@[simp] theorem State.takeFault_v (c : FaultCode) (op : Option Word) : (s.takeFault c op).v = s.v := rfl
@[simp] theorem State.takeFault_i (c : FaultCode) (op : Option Word) : (s.takeFault c op).i = s.i := rfl
@[simp] theorem State.takeFault_pc (c : FaultCode) (op : Option Word) : (s.takeFault c op).pc = s.pc := rfl
@[simp] theorem State.takeFault_stack (c : FaultCode) (op : Option Word) : (s.takeFault c op).stack = s.stack := rfl
@[simp] theorem State.takeFault_sp (c : FaultCode) (op : Option Word) : (s.takeFault c op).sp = s.sp := rfl
@[simp] theorem State.takeFault_dt (c : FaultCode) (op : Option Word) : (s.takeFault c op).dt = s.dt := rfl
@[simp] theorem State.takeFault_st (c : FaultCode) (op : Option Word) : (s.takeFault c op).st = s.st := rfl
@[simp] theorem State.takeFault_fb (c : FaultCode) (op : Option Word) : (s.takeFault c op).fb = s.fb := rfl
@[simp] theorem State.takeFault_dirty (c : FaultCode) (op : Option Word) : (s.takeFault c op).dirty = s.dirty := rfl
@[simp] theorem State.takeFault_run (c : FaultCode) (op : Option Word) : (s.takeFault c op).run = .halted := rfl
@[simp] theorem State.takeFault_fault (c : FaultCode) (op : Option Word) : (s.takeFault c op).fault = { code := c, pc := s.pc, opcode := op } := rfl
@[simp] theorem State.takeFault_keys (c : FaultCode) (op : Option Word) : (s.takeFault c op).keys = s.keys := rfl
@[simp] theorem State.takeFault_draws (c : FaultCode) (op : Option Word) : (s.takeFault c op).draws = s.draws := rfl
@[simp] theorem State.takeFault_drawCount (c : FaultCode) (op : Option Word) : (s.takeFault c op).drawCount = s.drawCount := rfl

/-! ## `State.clearDirty` -/

@[simp] theorem State.clearDirty_mem : s.clearDirty.mem = s.mem := rfl
@[simp] theorem State.clearDirty_v : s.clearDirty.v = s.v := rfl
@[simp] theorem State.clearDirty_i : s.clearDirty.i = s.i := rfl
@[simp] theorem State.clearDirty_pc : s.clearDirty.pc = s.pc := rfl
@[simp] theorem State.clearDirty_stack : s.clearDirty.stack = s.stack := rfl
@[simp] theorem State.clearDirty_sp : s.clearDirty.sp = s.sp := rfl
@[simp] theorem State.clearDirty_dt : s.clearDirty.dt = s.dt := rfl
@[simp] theorem State.clearDirty_st : s.clearDirty.st = s.st := rfl
@[simp] theorem State.clearDirty_fb : s.clearDirty.fb = s.fb := rfl
@[simp] theorem State.clearDirty_dirty : s.clearDirty.dirty = false := rfl
@[simp] theorem State.clearDirty_run : s.clearDirty.run = s.run := rfl
@[simp] theorem State.clearDirty_fault : s.clearDirty.fault = s.fault := rfl
@[simp] theorem State.clearDirty_keys : s.clearDirty.keys = s.keys := rfl
@[simp] theorem State.clearDirty_draws : s.clearDirty.draws = s.draws := rfl
@[simp] theorem State.clearDirty_drawCount : s.clearDirty.drawCount = s.drawCount := rfl

/-! ## `State.writeKeys` -/

@[simp] theorem State.writeKeys_mem (ks : Vector Bool 16) : (s.writeKeys ks).mem = s.mem := rfl
@[simp] theorem State.writeKeys_v (ks : Vector Bool 16) : (s.writeKeys ks).v = s.v := rfl
@[simp] theorem State.writeKeys_i (ks : Vector Bool 16) : (s.writeKeys ks).i = s.i := rfl
@[simp] theorem State.writeKeys_pc (ks : Vector Bool 16) : (s.writeKeys ks).pc = s.pc := rfl
@[simp] theorem State.writeKeys_stack (ks : Vector Bool 16) : (s.writeKeys ks).stack = s.stack := rfl
@[simp] theorem State.writeKeys_sp (ks : Vector Bool 16) : (s.writeKeys ks).sp = s.sp := rfl
@[simp] theorem State.writeKeys_dt (ks : Vector Bool 16) : (s.writeKeys ks).dt = s.dt := rfl
@[simp] theorem State.writeKeys_st (ks : Vector Bool 16) : (s.writeKeys ks).st = s.st := rfl
@[simp] theorem State.writeKeys_fb (ks : Vector Bool 16) : (s.writeKeys ks).fb = s.fb := rfl
@[simp] theorem State.writeKeys_dirty (ks : Vector Bool 16) : (s.writeKeys ks).dirty = s.dirty := rfl
@[simp] theorem State.writeKeys_run (ks : Vector Bool 16) : (s.writeKeys ks).run = s.run := rfl
@[simp] theorem State.writeKeys_fault (ks : Vector Bool 16) : (s.writeKeys ks).fault = s.fault := rfl
@[simp] theorem State.writeKeys_keys (ks : Vector Bool 16) : (s.writeKeys ks).keys = ks := rfl
@[simp] theorem State.writeKeys_draws (ks : Vector Bool 16) : (s.writeKeys ks).draws = s.draws := rfl
@[simp] theorem State.writeKeys_drawCount (ks : Vector Bool 16) : (s.writeKeys ks).drawCount = s.drawCount := rfl

/-! ## `State.supply` -/

@[simp] theorem State.supply_mem (inp : StepInput) : (s.supply inp).mem = s.mem := rfl
@[simp] theorem State.supply_v (inp : StepInput) : (s.supply inp).v = s.v := rfl
@[simp] theorem State.supply_i (inp : StepInput) : (s.supply inp).i = s.i := rfl
@[simp] theorem State.supply_pc (inp : StepInput) : (s.supply inp).pc = s.pc := rfl
@[simp] theorem State.supply_stack (inp : StepInput) : (s.supply inp).stack = s.stack := rfl
@[simp] theorem State.supply_sp (inp : StepInput) : (s.supply inp).sp = s.sp := rfl
@[simp] theorem State.supply_dt (inp : StepInput) : (s.supply inp).dt = s.dt := rfl
@[simp] theorem State.supply_st (inp : StepInput) : (s.supply inp).st = s.st := rfl
@[simp] theorem State.supply_fb (inp : StepInput) : (s.supply inp).fb = s.fb := rfl
@[simp] theorem State.supply_dirty (inp : StepInput) : (s.supply inp).dirty = s.dirty := rfl
@[simp] theorem State.supply_run (inp : StepInput) : (s.supply inp).run = s.run := rfl
@[simp] theorem State.supply_fault (inp : StepInput) : (s.supply inp).fault = s.fault := rfl
@[simp] theorem State.supply_keys (inp : StepInput) : (s.supply inp).keys = inp.keys := rfl
@[simp] theorem State.supply_draws (inp : StepInput) : (s.supply inp).draws = [inp.draw] := rfl
@[simp] theorem State.supply_drawCount (inp : StepInput) : (s.supply inp).drawCount = s.drawCount := rfl

/-! ## The composed updates, in terms of the ones above -/

theorem State.advance_eq : s.advance = s.jump (s.pc + 2) := rfl

theorem State.skipWhen_eq (c : Bool) : s.skipWhen c = s.jump (if c then s.pc + 4 else s.pc + 2) := rfl

theorem State.setFlagged_eq (f : Bool) (x : Reg) (b : Byte) :
    s.setFlagged f x b = (s.setReg vf (flagByte f)).setReg x b := rfl

end Sys2Proof.Machine
end

