-- ==== Sys2Proof/Laws/Registers.lean ====
section
/-! SUPPORT. The laws of registers, stack, flags, keys and draws: what each shared operation can do. -/

namespace Sys2Proof.Machine

/-! ## Registers -/

theorem State.reg_eq (s : State) (x : Reg) : s.reg x = s.v[x] := rfl

/-- A register after a register write (R14). -/
theorem State.reg_setReg (s : State) (x y : Reg) (b : Byte) :
    (s.setReg x b).reg y = if y = x then b else s.reg y := by
  by_cases h : y = x
  · subst h; simp [State.reg, State.setReg]
  · have : x.val ≠ y.val := fun hv => h (Fin.ext hv.symm)
    simp [State.reg, State.setReg, h, this]

@[simp] theorem State.reg_jump (s : State) (w : Word) (x : Reg) : (s.jump w).reg x = s.reg x := rfl

/-- A register after the two writes of a flag instruction: the result at X, the flag at VF unless X = F (R179). -/
theorem State.reg_setFlagged (s : State) (f : Bool) (x y : Reg) (b : Byte) :
    (s.setFlagged f x b).reg y = if y = x then b else if y = vf then flagByte f else s.reg y := by
  rw [State.setFlagged_eq, State.reg_setReg, State.reg_setReg]

/-! ## Arithmetic with flags, as exact integers -/

theorem sumByte_toNat (a b : Byte) : (sumByte a b).toNat = (a.toNat + b.toNat) % 256 := by simp [sumByte]

theorem sumByte_eq_add (a b : Byte) : sumByte a b = a + b := by
  apply BitVec.eq_of_toNat_eq; simp [sumByte]

theorem diffByte_eq_sub (a b : Byte) : diffByte a b = a - b := by
  have ha := a.isLt
  have hb := b.isLt
  apply BitVec.eq_of_toNat_eq
  rw [diffByte, BitVec.toNat_ofInt, BitVec.toNat_sub]
  omega

/-- The difference as an exact integer modulo 256 (R195, R196). -/
theorem diffByte_toNat (a b : Byte) : (diffByte a b).toNat = (a.toNat + (256 - b.toNat)) % 256 := by
  rw [diffByte_eq_sub, BitVec.toNat_sub]; congr 1; omega

theorem carryOut_iff (a b : Byte) : carryOut a b = true ↔ 255 < a.toNat + b.toNat := by simp [carryOut]

theorem notBorrow_iff (a b : Byte) : notBorrow a b = true ↔ b.toNat ≤ a.toNat := by simp [notBorrow]

/-! ## Stack -/

/-- The top after a push that fits is the pushed word (R39). -/
theorem State.top_push (s : State) (w : Word) (h : s.sp.val < 16) : (s.push w).top = w := by
  have hm : min (s.sp.val + 1) 16 - 1 = s.sp.val := by omega
  simp [State.top, State.push, hm, Vector.setIfInBounds]

theorem State.pop_push_sp (s : State) (w : Word) (h : s.sp.val < 16) : (s.push w).pop.sp = s.sp := by
  apply Fin.ext; simp only [State.pop_sp, State.push_sp]; omega

/-! ## Keys -/

/-- A key index up to 0x0F reads its slot; a larger one reads none (R261). -/
theorem State.keyAt_eq (s : State) (k : Byte) :
    s.keyAt k = if h : k.toNat < 16 then some s.keys[k.toNat] else none := by
  simp only [State.keyAt]
  split
  · rename_i h; simp [h]
  · rename_i h; simp; omega

/-- No least key exactly when no key is pressed (R266). -/
theorem State.leastKey_eq_none (s : State) : s.leastKey = none ↔ ∀ k : Fin 16, s.keys[k] = false := by
  simp only [State.leastKey, List.findIdx?_eq_none_iff]
  constructor
  · intro h k
    have := h s.keys[k] (by simp)
    simpa using this
  · intro h b hb
    obtain ⟨k, hk, rfl⟩ := List.getElem_of_mem hb
    have hk' : k < 16 := by simpa using hk
    simpa using h ⟨k, hk'⟩

/-- The least key is pressed, and every lower one is not (R268). -/
theorem State.leastKey_eq_some (s : State) (k : Nat) :
    s.leastKey = some k ↔ ∃ h : k < 16, s.keys[k] = true ∧ ∀ j : Fin 16, j.val < k → s.keys[j] = false := by
  simp only [State.leastKey, List.findIdx?_eq_some_iff_getElem]
  constructor
  · rintro ⟨h, h1, h2⟩
    have hk : k < 16 := by simpa using h
    refine ⟨hk, by simpa using h1, fun j hj => ?_⟩
    simpa using h2 j.val hj
  · rintro ⟨hk, h1, h2⟩
    refine ⟨by simpa using hk, by simpa using h1, fun j hj => ?_⟩
    simpa using h2 ⟨j, by omega⟩ hj

/-! ## Draws -/

/-- A draw's byte lies in [1, 255] (R210). -/
theorem drawByte_range (d : Draw) : 1 ≤ (drawByte d).toNat ∧ (drawByte d).toNat ≤ 255 := by
  have := d.isLt; simp [drawByte]; omega

theorem drawByte_toNat (d : Draw) : (drawByte d).toNat = d.val + 1 := by
  have := d.isLt; simp [drawByte]; omega

end Sys2Proof.Machine
end

