-- ==== Sys2Proof/Laws/Step.lean ====
section
/-! SUPPORT. What a step can do, said once: the four cases of R130. -/

namespace Sys2Proof

/-- A rejection names the word it rejects (R123). -/
theorem decode_unimplemented {op w : Word} (h : decode op = .unimplemented w) : w = op := by
  simp only [decode, decode0, decodeN0, decode8, decodeE, decodeF] at h
  repeat' split at h
  all_goals first | cases h; rfl | cases h

/-- A 16-bit word is never too short (R90). -/
theorem decode_ne_truncated (op : Word) : decode op ≠ .truncated := by
  intro h
  simp only [decode, decode0, decodeN0, decode8, decodeE, decodeF] at h
  repeat' split at h
  all_goals cases h

namespace Machine

theorem State.canFetch_iff (s : State) : s.canFetch = true ↔ s.pc.toNat ≤ 0xFFE := by
  simp [State.canFetch]; omega

/-- The four cases of a step: not running, the fetch fault, an unimplemented word, an instruction (R130, R304). -/
theorem step_cases {s t : State} (h : step s = .next t) :
    (s.run ≠ .running ∧ t = s) ∨
    (s.run = .running ∧ ¬s.pc.toNat ≤ 0xFFE ∧ t = s.takeFault .fetchOutOfRange none) ∨
    (s.run = .running ∧ s.pc.toNat ≤ 0xFFE ∧ decode s.fetchWord = .unimplemented s.fetchWord ∧
      t = s.takeFault .unimplementedOpcode (some s.fetchWord)) ∨
    (s.run = .running ∧ s.pc.toNat ≤ 0xFFE ∧ ∃ i, decode s.fetchWord = .instr i ∧ exec i s = .next t) := by
  simp only [step, runStep] at h
  split at h
  · rename_i hr
    split at h
    · rename_i hf
      rw [State.canFetch_iff] at hf
      split at h
      · rename_i i hd
        exact .inr (.inr (.inr ⟨hr, hf, i, hd, h⟩))
      · rename_i w hd
        cases decode_unimplemented hd
        cases h
        exact .inr (.inr (.inl ⟨hr, hf, hd, rfl⟩))
      · rename_i hd
        exact absurd hd (decode_ne_truncated _)
    · rename_i hf
      rw [State.canFetch_iff] at hf
      cases h
      exact .inr (.inl ⟨hr, hf, rfl⟩)
  · rename_i hr
    cases h
    exact .inl ⟨hr, rfl⟩

/-- The word a step fetches (R122). -/
theorem State.fetchWord_eq (s : State) :
    s.fetchWord = Memory.read s.mem s.pc.toNat ++ Memory.read s.mem (s.pc.toNat + 1) := rfl

theorem Fetches_iff (s : State) (op : Word) :
    Safety.Fetches s op ↔ s.run = .running ∧ s.pc.toNat ≤ 0xFFE ∧ s.fetchWord = op := Iff.rfl

end Machine

end Sys2Proof
end

