-- ==== Sys2Proof/Tests/Slice0.lean ====
section
/-! SUPPORT. Tests of the model and witnesses of the obligations' hypotheses. Expected results come from the vectors of
spec/95_test_vectors.md (V1 ... V146) and the rules they cite, never from the model. -/

namespace Sys2Proof.Tests

open Sys2Proof Sys2Proof.Machine Sys2Proof.Safety

/-! ## The start state of the vectors, and one step of it -/

/-- The vectors' start state: a load, then `clearDirty()`. -/
def base : State := { State.reset with dirty := false }

/-- The start state with some registers set. -/
def withV (l : List (Reg × Byte)) : State := { base with v := l.foldl (fun v p => v.set p.1 p.2) base.v }

/-- A state with bytes stored from an address. -/
def withBytes (s : State) (a : Nat) (bs : List Byte) : State := { s with mem := Memory.writeBytes s.mem a bs }

/-- A state with some keys pressed. -/
def pressing (s : State) (ks : List (Fin 16)) : State :=
  { s with keys := ks.foldl (fun (v : Vector Bool 16) (k : Fin 16) => v.set k true) base.keys }

/-- The state after one step of the word `w` placed at PC. -/
def after (s : State) (w : Nat) : State := answerState s (step (s.withFetchWord 16 w))

/-- One step of the word halts with this record and changes nothing else. -/
def halts (s : State) (w : Nat) (c : FaultCode) : Bool :=
  after s w == haltedOn (s.withFetchWord 16 w) c (some (BitVec.ofNat 16 w))

/-! ## WellFormed -/

/-- The one check refuses the two NNN that spell CLS and RET, and lets their neighbours pass (R95). -/
theorem test_wellFormed_sys :
    (Instr.sys 0x0E0).wellFormed = false ∧ (Instr.sys 0x0EE).wellFormed = false ∧
    (Instr.sys 0x0E1).wellFormed = true ∧ (Instr.sys 0x1E0).wellFormed = true := by decide

/-- A draw of the model is a byte from 1 to 255 (R210). -/
theorem test_draw_bounds : drawByte 0 = 0x01 ∧ drawByte 254 = 0xFF := by decide

/-! ## Decoding: words written out from the spec's formats, one for every constructor -/

/-- Format NNN (R92): the family, then the 12-bit address. -/
theorem test_decode_NNN :
    decode 0b0000000100100011#16 = .instr (.sys 0x123) ∧
    decode 0b0000000000000000#16 = .instr (.sys 0x000) ∧
    decode 0b0000000111100000#16 = .instr (.sys 0x1E0) ∧
    decode 0b0000111111101110#16 = .instr (.sys 0xFEE) ∧
    decode 0b0001101010111100#16 = .instr (.jp 0xABC) ∧
    decode 0b0010010000000000#16 = .instr (.call 0x400) ∧
    decode 0b1010111111111111#16 = .instr (.ldI 0xFFF) ∧
    decode 0b1011001000000001#16 = .instr (.jpV0 0x201) := by decide

/-- The two exact words of family 0 (R95). -/
theorem test_decode_whole_words :
    decode 0b0000000011100000#16 = .instr .cls ∧
    decode 0b0000000011101110#16 = .instr .ret := by decide

/-- Format XNN (R92): the family, register X, the 8-bit immediate. -/
theorem test_decode_XNN :
    decode 0b0011001100010000#16 = .instr (.seImm 3 0x10) ∧
    decode 0b0100001100010001#16 = .instr (.sneImm 3 0x11) ∧
    decode 0b0110101001000010#16 = .instr (.ldImm 10 0x42) ∧
    decode 0b0111000111111111#16 = .instr (.addImm 1 0xFF) ∧
    decode 0b1100001100001111#16 = .instr (.rnd 3 0x0F) := by decide

/-- Format XYS (R92), families 5 and 9. -/
theorem test_decode_XYS_compare :
    decode 0b0101000100100000#16 = .instr (.seReg 1 2) ∧
    decode 0b1001000100100000#16 = .instr (.sneReg 1 2) := by decide

/-- Format XYS (R92), family 8: the sub-nibble selects the operation (R95). -/
theorem test_decode_XYS_alu :
    decode 0b1000000100100000#16 = .instr (.ldReg 1 2) ∧
    decode 0b1000000100100001#16 = .instr (.orReg 1 2) ∧
    decode 0b1000000100100010#16 = .instr (.andReg 1 2) ∧
    decode 0b1000000100100011#16 = .instr (.xorReg 1 2) ∧
    decode 0b1000111100010100#16 = .instr (.addReg 15 1) ∧
    decode 0b1000000000010101#16 = .instr (.subReg 0 1) ∧
    decode 0b1000001011110110#16 = .instr (.shr 2 15) ∧
    decode 0b1000000000010111#16 = .instr (.subnReg 0 1) ∧
    decode 0b1000001000001110#16 = .instr (.shl 2 0) := by decide

/-- Format XYN (R92): DXYN. -/
theorem test_decode_XYN :
    decode 0b1101000100100101#16 = .instr (.drw 1 2 5) ∧
    decode 0b1101111100011010#16 = .instr (.drw 15 1 10) := by decide

/-- Format XSS (R92), family E. -/
theorem test_decode_XSS_keys :
    decode 0b1110010110011110#16 = .instr (.skp 5) ∧
    decode 0b1110010110100001#16 = .instr (.sknp 5) := by decide

/-- Format XSS (R92), family F. -/
theorem test_decode_XSS_misc :
    decode 0b1111001100000111#16 = .instr (.ldVxDt 3) ∧
    decode 0b1111000100001010#16 = .instr (.ldVxK 1) ∧
    decode 0b1111001000010101#16 = .instr (.ldDtVx 2) ∧
    decode 0b1111010000011000#16 = .instr (.ldStVx 4) ∧
    decode 0b1111000100011110#16 = .instr (.addIVx 1) ∧
    decode 0b1111101000101001#16 = .instr (.ldFVx 10) ∧
    decode 0b1111000000110011#16 = .instr (.ldBVx 0) ∧
    decode 0b1111001001010101#16 = .instr (.ldMemVx 2) ∧
    decode 0b1111111101100101#16 = .instr (.ldVxMem 15) := by decide

/-- Words that are no instruction (R95, vectors V136 to V139). -/
theorem test_decode_unimplemented :
    decode 0b0101000100100001#16 = .unimplemented 0x5121 ∧
    decode 0b1001000100100001#16 = .unimplemented 0x9121 ∧
    decode 0b1000000100101000#16 = .unimplemented 0x8128 ∧
    decode 0b1000000100101101#16 = .unimplemented 0x812D ∧
    decode 0b1000000100101111#16 = .unimplemented 0x812F ∧
    decode 0b1110000111111111#16 = .unimplemented 0xE1FF ∧
    decode 0b1110000010011111#16 = .unimplemented 0xE09F ∧
    decode 0b1110000110100010#16 = .unimplemented 0xE1A2 ∧
    decode 0b1111000111111111#16 = .unimplemented 0xF1FF ∧
    decode 0b1111000100000000#16 = .unimplemented 0xF100 ∧
    decode 0b1111000100001000#16 = .unimplemented 0xF108 := by decide

/-- The host's view of a table word: bits above `nbits` are zero, and an unimplemented word is refused. -/
theorem test_decodeTableWord :
    decodeTableWord 16 0xD125 = some (.drw 1 2 5) ∧ decodeTableWord 16 0x8128 = none ∧
    decodeBytes [0xD1] = .truncated := by decide

/-! ## One step: control flow (V1 to V26) -/

theorem test_sys : after base 0x01E0 = { base.withFetchWord 16 0x01E0 with pc := 0x202 } := by decide

theorem test_ret :
    after { base with sp := 1, stack := base.stack.set 0 0xFFE } 0x00EE =
      { base.withFetchWord 16 0x00EE with pc := 0x1000, stack := base.stack.set 0 0xFFE } := by decide

theorem test_ret_underflow : halts base 0x00EE .stackUnderflow = true := by decide

theorem test_jp : (after base 0x1ABC).pc = 0xABC ∧ (after base 0x1FFF).pc = 0xFFF := by decide

theorem test_call :
    let t := after base 0x2400
    t.stack[0] = 0x200 ∧ t.sp = 1 ∧ t.pc = 0x400 := by decide

theorem test_call_overflow : halts { base with sp := 16 } 0x2400 .stackOverflow = true := by decide

theorem test_seImm : (after (withV [(3, 0x10)]) 0x3310).pc = 0x204 ∧ (after (withV [(3, 0x10)]) 0x3311).pc = 0x202 := by
  decide

theorem test_sneImm : (after (withV [(3, 0x10)]) 0x4310).pc = 0x202 ∧ (after (withV [(3, 0x10)]) 0x4311).pc = 0x204 := by
  decide

theorem test_seReg :
    (after (withV [(1, 7), (2, 7)]) 0x5120).pc = 0x204 ∧ (after (withV [(1, 7), (2, 8)]) 0x5120).pc = 0x202 := by decide

theorem test_sneReg :
    (after (withV [(1, 7), (2, 7)]) 0x9120).pc = 0x202 ∧ (after (withV [(1, 7), (2, 8)]) 0x9120).pc = 0x204 := by decide

theorem test_jpV0 : (after (withV [(0, 0xFF)]) 0xBFFF).pc = 0x10FE ∧ (after (withV [(3, 4)]) 0xB300).pc = 0x300 := by
  decide

/-- V26: a taken skip at 0xFFC passes the word at 0xFFE without fetching it. -/
theorem test_skip_to_the_end : (after { base with pc := 0xFFC } 0x3000).pc = 0x1000 := by decide

/-! ## One step: loads, arithmetic, logic, shifts, random (V27 to V59b) -/

theorem test_ldImm : (after base 0x6A42).v[10] = 0x42 ∧ (after base 0x6F01).v[15] = 0x01 := by decide

theorem test_addImm :
    let t := after (withV [(1, 0x01), (15, 0x55)]) 0x71FF
    t.v[1] = 0x00 ∧ t.v[15] = 0x55 ∧ t.pc = 0x202 := by decide

theorem test_ldReg : (after (withV [(1, 0x03), (2, 0x9A)]) 0x8120).v[1] = 0x9A := by decide

theorem test_orReg :
    let t := after (withV [(1, 0xF0), (2, 0x0F), (15, 0x55)]) 0x8121
    t.v[1] = 0xFF ∧ t.v[15] = 0x55 := by decide

theorem test_andReg : (after (withV [(1, 0xF3), (2, 0x3F)]) 0x8122).v[1] = 0x33 := by decide

theorem test_xorReg : (after (withV [(1, 0xFF), (2, 0x0F)]) 0x8123).v[1] = 0xF0 := by decide

theorem test_addReg :
    let t := after (withV [(0, 0xFF), (1, 0x01)]) 0x8014
    let u := after (withV [(0, 0xFE), (1, 0x01)]) 0x8014
    t.v[0] = 0x00 ∧ t.v[15] = 1 ∧ u.v[0] = 0xFF ∧ u.v[15] = 0 := by decide

/-- V35, V36: VF as the destination keeps the sum, VF as the operand is read before the carry is written. -/
theorem test_addReg_vf :
    (after (withV [(15, 0x80), (1, 0x90)]) 0x8F14).v[15] = 0x10 ∧
    (after (withV [(1, 0x10), (15, 0x20)]) 0x81F4).v[1] = 0x30 := by decide

theorem test_subReg :
    let t := after (withV [(0, 0x01), (1, 0x02)]) 0x8015
    let u := after (withV [(0, 0x05), (1, 0x05)]) 0x8015
    t.v[0] = 0xFF ∧ t.v[15] = 0 ∧ u.v[0] = 0x00 ∧ u.v[15] = 1 := by decide

theorem test_subReg_vf : (after (withV [(15, 0x05), (1, 0x03)]) 0x8F15).v[15] = 0x02 := by decide

theorem test_subnReg :
    let t := after (withV [(0, 0x02), (1, 0x05)]) 0x8017
    let u := after (withV [(0, 0x05), (1, 0x02)]) 0x8017
    t.v[0] = 0x03 ∧ t.v[15] = 1 ∧ u.v[0] = 0xFD ∧ u.v[15] = 0 := by decide

theorem test_subnReg_vf : (after (withV [(15, 0x01), (1, 0x00)]) 0x8F17).v[15] = 0xFF := by decide

theorem test_shr :
    let t := after (withV [(2, 0x05), (15, 0x33)]) 0x82F6
    t.v[2] = 0x02 ∧ t.v[15] = 1 := by decide

theorem test_shr_vf : (after (withV [(15, 0x03)]) 0x8F06).v[15] = 0x01 := by decide

theorem test_shl :
    let t := after (withV [(2, 0x81)]) 0x820E
    let u := after (withV [(3, 0x7F)]) 0x830E
    t.v[2] = 0x02 ∧ t.v[15] = 1 ∧ u.v[3] = 0xFE ∧ u.v[15] = 0 := by decide

theorem test_shl_vf : (after (withV [(15, 0x81)]) 0x8F0E).v[15] = 0x02 := by decide

/-- V58 and V59: the draw 0xA7 under the mask 0x0F, and under 0. -/
theorem test_rnd :
    (after { base with draws := [0xA6] } 0xC30F).v[3] = 0x07 ∧ (after { base with draws := [0xA6] } 0xC300).v[3] = 0x00 := by
  decide

/-- V59b, and the draw is used up. -/
theorem test_rnd_uses_its_draw :
    let t := after { base with draws := [0, 7] } 0xC3FF
    t.v[3] = 0x01 ∧ t.draws = [7] := by decide

/-! ## One step: index register and memory (V60 to V83) -/

theorem test_ldI : (after base 0xAFFF).i = 0xFFF := by decide

theorem test_addIVx :
    let t := after { withV [(1, 0x20), (15, 0x42)] with i := 0xFFF0 } 0xF11E
    t.i = 0x0010 ∧ t.v[15] = 0x42 := by decide

/-- V68: no mask to 12 bits. -/
theorem test_addIVx_no_mask : (after { withV [(0, 0x01)] with i := 0xFFF } 0xF01E).i = 0x1000 := by decide

theorem test_ldFVx :
    (after (withV [(10, 0x0A)]) 0xFA29).i = 0x082 ∧ (after (withV [(1, 0xFF)]) 0xF129).i = 0x54B := by decide

theorem test_ldBVx :
    let t := after { withV [(0, 156)] with i := 0x300 } 0xF033
    Memory.read t.mem 0x300 = 1 ∧ Memory.read t.mem 0x301 = 5 ∧ Memory.read t.mem 0x302 = 6 := by decide

theorem test_ldBVx_out_of_range : halts { withV [(0, 123)] with i := 0xFFE } 0xF033 .memOutOfRange = true := by decide

theorem test_ldMemVx :
    let t := after { withV [(0, 0x10), (1, 0x11), (2, 0x12), (3, 0x13)] with i := 0x300 } 0xF255
    Memory.read t.mem 0x300 = 0x10 ∧ Memory.read t.mem 0x302 = 0x12 ∧ Memory.read t.mem 0x303 = 0x00 ∧ t.i = 0x300 := by
  decide

theorem test_ldMemVx_out_of_range : halts { base with i := 0xFF1 } 0xFF55 .memOutOfRange = true := by decide

theorem test_ldVxMem :
    let t := after (withBytes { withV [(3, 0x77)] with i := 0x300 } 0x300 [0xA0, 0xA1, 0xA2, 0xA3]) 0xF265
    t.v[0] = 0xA0 ∧ t.v[2] = 0xA2 ∧ t.v[3] = 0x77 ∧ t.i = 0x300 := by decide

theorem test_ldVxMem_out_of_range : halts { base with i := 0x1000 } 0xF065 .memOutOfRange = true := by decide

/-! ## One step: display (V90 to V100) -/

theorem test_cls :
    let t := after { base with fb := Vector.replicate 32 (BitVec.allOnes 64) } 0x00E0
    t.fb = Vector.replicate 32 0 ∧ t.dirty = true ∧ t.pc = 0x202 := by decide

/-- V96 and V97: a set bit inverts and collides, a pixel under a 0 bit stays. -/
theorem test_drw :
    let s := { withBytes base 0x300 [0xC0, 0x80] with i := 0x300, fb := flipPixel blankScreen 1 0 }
    let t := after s 0xD121
    let u := after { s with i := 0x301 } 0xD121
    pixel t.fb 0 0 = true ∧ pixel t.fb 1 0 = false ∧ t.v[15] = 1 ∧ t.dirty = true ∧
    pixel u.fb 0 0 = true ∧ pixel u.fb 1 0 = true ∧ u.v[15] = 0 := by decide

/-- V93 to V95: clipping at the right and bottom edges, no wrap. -/
theorem test_drw_clips :
    let s := { withBytes base 0x300 [0xFF, 0x80, 0x80, 0x80] with i := 0x300 }
    let t := after { s with v := (s.v.set 1 60) } 0xD121
    let u := after { s with v := (s.v.set 1 64) } 0xD121
    let w := after { s with v := (s.v.set 2 30), i := 0x301 } 0xD123
    t.fb = (blankScreen.set 0 0xF000000000000000 : Framebuffer) ∧ u.fb = blankScreen ∧
    w.fb = ((blankScreen.set 30 1).set 31 1 : Framebuffer) := by decide

/-- V99 and V100. -/
theorem test_drw_range :
    halts { base with i := 0xFFE } 0xD123 .memOutOfRange = true ∧ (after { base with i := 0xFFF } 0xD121).run = .running := by
  decide

/-- V91: the glyph of 0 at (5, 3), 14 pixels; font premise (log entry 2). -/
theorem test_font_glyph :
    let t := after { withV [(1, 5), (2, 3)] with i := 0x050 } 0xD125
    t.fb = (((((blankScreen.set 3 0x1E0).set 4 0x120).set 5 0x120).set 6 0x120).set 7 0x1E0 : Framebuffer) ∧ t.v[15] = 0 := by
  decide

/-! ## One step: keys and timers (V110 to V124) -/

theorem test_skp :
    (after (pressing (withV [(5, 10)]) [10]) 0xE59E).pc = 0x204 ∧ (after (withV [(5, 10)]) 0xE59E).pc = 0x202 := by decide

theorem test_skp_index : halts (withV [(5, 0x10)]) 0xE59E .keyIndexOutOfRange = true := by decide

theorem test_sknp :
    (after (pressing (withV [(5, 10)]) [10]) 0xE5A1).pc = 0x202 ∧ (after (withV [(5, 10)]) 0xE5A1).pc = 0x204 := by decide

theorem test_sknp_index : halts (withV [(5, 0xFF)]) 0xE5A1 .keyIndexOutOfRange = true := by decide

theorem test_ldVxDt : (after { base with dt := 0x3C } 0xF307).v[3] = 0x3C := by decide

theorem test_ldVxK_waits : after base 0xF10A = base.withFetchWord 16 0xF10A := by decide

theorem test_ldVxK :
    let t := after (pressing base [9, 3]) 0xF10A
    t.v[1] = 0x03 ∧ t.pc = 0x202 := by decide

theorem test_ldDtVx : (after { withV [(2, 0x20)] with dt := 9 } 0xF215).dt = 0x20 := by decide

theorem test_ldStVx : (after { withV [(4, 0x02)] with dt := 9 } 0xF418).st = 2 := by decide

/-! ## The engine and the host's operations (V125 to V146) -/

/-- V133 to V135: the last fetchable PC, and the first two that are not. -/
theorem test_fetch_range :
    (after { base with pc := 0xFFE } 0x6001).v[0] = 0x01 ∧ (after { base with pc := 0xFFE } 0x6001).pc = 0x1000 ∧
    answerState base (step { base with pc := 0xFFF }) = haltedOn { base with pc := 0xFFF } .fetchOutOfRange none ∧
    answerState base (step { base with pc := 0x1000 }) = haltedOn { base with pc := 0x1000 } .fetchOutOfRange none := by decide

theorem test_unimplemented_halts :
    halts base 0x5121 .unimplementedOpcode = true ∧ halts base 0xF1FF .unimplementedOpcode = true := by decide

/-- V1, V90, V117, V136, V140: what a step returns. -/
theorem test_stepResult :
    stepResult base = .ok false ∧ stepResult (base.withFetchWord 16 0x00E0) = .ok true ∧
    stepResult (base.withFetchWord 16 0xF10A) = .ok false ∧
    stepResult (base.withFetchWord 16 0x5121) = .halted .unimplementedOpcode ∧
    stepResult { base with run := .halted } = .notRunning := by decide

theorem test_tickTimers :
    { base with dt := 3, st := 1 }.tickTimers = ({ base with dt := 2, st := 0 }, true) ∧
    { base with dt := 0, st := 2 }.tickTimers = ({ base with dt := 0, st := 1 }, false) ∧
    base.tickTimers = (base, false) ∧
    { base with run := .halted, dt := 5, st := 5 }.tickTimers = ({ base with run := .halted, dt := 5, st := 5 }, false) := by
  decide

/-- V130: a load from a halted state; the key state is unchanged. -/
theorem test_load :
    let s := { pressing (withV [(3, 9)]) [7] with
      run := .halted, i := 0x444, sp := 4, dt := 7, st := 2, fb := Vector.replicate 32 1 }
    let t := (s.loadProgram [0x12, 0x00]).1
    t = { pressing (withBytes base 0x200 [0x12, 0x00]) [7] with dirty := true } ∧
    Memory.read t.mem 0x200 = 0x12 ∧ Memory.read t.mem 0x050 = 0xF0 ∧ Memory.read t.mem 0x202 = 0x00 := by
  simp only [State.loadProgram, loadedMemory_default]; decide

/-- A load with a font of 0xAA bytes writes that font over 0x050 to 0x09F and nothing beyond (R11, R350). -/
theorem test_load_another_font :
    let m := loadedMemory (Vector.replicate _ 0xAA) [0x12]
    Memory.read m 0x04F = 0x00 ∧ Memory.read m 0x050 = 0xAA ∧ Memory.read m 0x09F = 0xAA ∧ Memory.read m 0x0A0 = 0x00 ∧
    Memory.read m 0x200 = 0x12 := by
  simp only [loadedMemory_read]; decide

/-- No key pressed and any draw, at every step. -/
def noKeys : Nat → StepInput := fun _ => { keys := Vector.replicate 16 false, draw := 0 }

/-- V142 to V145, with three steps in place of 32. -/
theorem test_stepBatch :
    ((base.withFetchWord 16 0x1200).stepBatch 3 noKeys).2 = 3 ∧
    ((base.withFetchWord 16 0x1200).stepBatch 0 noKeys).2 = 0 ∧
    ((withBytes base 0x200 [0x00, 0xE0, 0x12, 0x02]).stepBatch 3 noKeys).2 = 1 ∧
    ((base.withFetchWord 16 0xF00A).stepBatch 3 noKeys).2 = 3 := by decide

theorem test_clearDirty : State.reset.clearDirty = base := by decide

/-- A placed word runs as the first instruction after reset, and where PC can fetch nothing it is placed at 0x200. -/
theorem test_withFetchWord :
    (answerState base (step (State.reset.withFetchWord 16 0x6A42))).v[10] = 0x42 ∧
    (after { base with pc := 0xFFF, run := .halted } 0x6A42).v[10] = 0x42 := by decide

/-- Writing the byte an unlisted address reads as removes the entry. -/
theorem test_memory_canonical :
    Memory.write (Memory.write [] 0x300 5) 0x300 0 = [] ∧
    Memory.write (Memory.write [] 0x301 6) 0x300 5 = [(0x300, 5), (0x301, 6)] ∧
    Memory.write [] 0x050 0xF0 = [] := by decide


/-! ## Witnesses: states and operands that meet the hypotheses of each obligation, at the boundaries of its clauses -/

theorem witness_DecodeInvertsEncode :
    (Instr.sys 0x0E1).wellFormed = true ∧ (Instr.drw 15 15 15).wellFormed = true ∧ (Instr.sys 0xFFF).wellFormed = true := by
  decide

theorem witness_EncodeInvertsDecode : decode 0x0000 = .instr (.sys 0x000) ∧ decode 0xFF65 = .instr (.ldVxMem 15) := by decide

/-- One word in each clause, at its edge. -/
theorem witness_UnimplementedWordsByFamily :
    decode 0x500F = .unimplemented 0x500F ∧ decode 0x9001 = .unimplemented 0x9001 ∧ decode 0x8008 = .unimplemented 0x8008 ∧
    decode 0xEFFF = .unimplemented 0xEFFF ∧ decode 0xF066 = .unimplemented 0xF066 ∧ decode 0x800E = .instr (.shl 0 0) := by
  decide

theorem witness_IgnoredFieldsHaveNoEffect : (0x0E1 : Addr) ≠ 0x0E0 ∧ (0x0EF : Addr) ≠ 0x0EE := by decide

/-- At the last PC that fetches. -/
theorem witness_StepRunsTheDecodedInstruction :
    Fetches (withBytes { base with pc := 0xFFE } 0xFFE [0x60, 0x01]) 0x6001 ∧ decode 0x6001 = .instr (.ldImm 0 1) := by
  unfold Fetches; decide

theorem witness_FetchPastMemoryHalts : { base with pc := 0xFFF }.run = .running ∧ (0xFFF#16).toNat > 0xFFE := by decide

theorem witness_UnimplementedWordHalts :
    Fetches (base.withFetchWord 16 0x5121) 0x5121 ∧ decode 0x5121 = .unimplemented 0x5121 := by
  unfold Fetches; decide

theorem witness_StepWhileNotRunningDoesNothing :
    { base with run := .halted }.run ≠ .running ∧ { base with run := .noProgram }.run ≠ .running := by decide

/-- A step that is none, one that halts, one that runs on. -/
theorem witness_StepReturnValue :
    step { base with run := .noProgram } = .next { base with run := .noProgram } ∧
    step { base with pc := 0xFFF } = .next (haltedOn { base with pc := 0xFFF } .fetchOutOfRange none) ∧
    step base = .next { base with pc := 0x202 } ∧ base.run = .running ∧ { base with pc := 0x202 }.run ≠ .halted :=
  ⟨rfl, rfl, rfl, rfl, by decide⟩

theorem witness_FaultsArePrecise :
    step { base with pc := 0xFFF } = .next (haltedOn { base with pc := 0xFFF } .fetchOutOfRange none) ∧
    step (base.withFetchWord 16 0x00EE) =
      .next (haltedOn (base.withFetchWord 16 0x00EE) .stackUnderflow (some 0x00EE)) ∧
    (base.withFetchWord 16 0x00EE).run = .running := ⟨rfl, rfl, rfl⟩

/-- Each of the three checks failing, and none. -/
theorem witness_FaultPriority :
    step { base with pc := 0x1000 } = .next (haltedOn { base with pc := 0x1000 } .fetchOutOfRange none) ∧
    Fetches (base.withFetchWord 16 0xF1FF) 0xF1FF ∧ decode 0xF1FF = .unimplemented 0xF1FF ∧
    Fetches (base.withFetchWord 16 0x00EE) 0x00EE ∧ ownFault .ret (base.withFetchWord 16 0x00EE) = some .stackUnderflow ∧
    Fetches base 0x0000 ∧ ownFault (.sys 0) base = none := by
  refine ⟨rfl, ?_⟩; unfold Fetches; decide

/-- A faulting instruction, one that does not, and the clauses with a premise: a return from the full stack, the last key. -/
theorem witness_ProgramCounterTable :
    exec .ret base = .next (haltedOn base .stackUnderflow (some 0x00EE)) ∧ ownFault .ret base ≠ none ∧
    exec .cls base = .next { base with dirty := true, pc := 0x202 } ∧ ownFault .cls base = none ∧
    (15 : Fin 16).val + 1 = { base with sp := 16 }.sp.val ∧ ownFault .ret { base with sp := 16 } = none ∧
    (15 : Fin 16).val = (withV [(5, 15)]).v[5].toNat ∧ ownFault (.skp 5) (withV [(5, 15)]) = none := by
  refine ⟨rfl, ?_, rfl, ?_⟩ <;> decide

/-- A state at the bounds of the invariant: PC at the last value, a full stack of the highest return addresses. -/
def edge (pc : Word) : State := { base with pc := pc, sp := 16, stack := Vector.replicate 16 0xFFE }

theorem edge_inv (pc : Word) (h : pc.toNat ≤ 0x10FE) : Inv (edge pc) where
  memWf := rfl
  pcBound := h
  returns := by intro k _; simp [edge]
  record := by simp [faultRecordOk, edge, base, State.reset]

/-- The three kinds of step at the last PC: a taken skip, a return, a jump. -/
theorem witness_ProgramCounterNeverWraps :
    Inv (edge 0xFFE) ∧ (edge 0xFFE).pc.toNat ≤ 0xFFE ∧
    exec (.seImm 0 0) (edge 0xFFE) = .next { edge 0xFFE with pc := 0x1002 } ∧
    exec .ret (edge 0xFFE) = .next { edge 0xFFE with pc := 0x1000, sp := 15 } ∧
    exec (.jp 0xFFF) (edge 0xFFE) = .next { edge 0xFFE with pc := 0xFFF } :=
  ⟨edge_inv _ (by decide), by decide, rfl, rfl, rfl⟩

theorem witness_StepKeepsInvariant :
    Inv (edge 0x10FE) ∧ step (edge 0x10FE) = .next (haltedOn (edge 0x10FE) .fetchOutOfRange none) :=
  ⟨edge_inv _ (by decide), rfl⟩

theorem witness_HostRunsKeepInvariant : Inv (edge 0x200) := edge_inv _ (by decide)

theorem witness_CanonicalMemoriesAreEqualData :
    Memory.wf (Memory.write [] 0xFFF 1) = true ∧ Memory.wf [(0xFFF, 1)] = true ∧
    ∀ a, Memory.read (Memory.write [] 0xFFF 1) a = Memory.read [(0xFFF, 1)] a := ⟨rfl, rfl, fun _ => rfl⟩

/-- The longest program a load takes, and one byte more (V131, V132). -/
theorem witness_LoadSetsEveryField :
    (List.replicate 3584 (0x12 : Byte)).length ≤ 3584 ∧ (List.replicate 3585 (0x12 : Byte)).length > 3584 := by
  simp only [List.length_replicate]; omega

theorem witness_LoadIgnoresThePriorState : (List.replicate 3584 (0x12 : Byte)).length ≤ 3584 := by
  simp only [List.length_replicate]; omega

theorem witness_PowerOnCoreDoesNothing : PowerOn { edge 0x123 with run := .noProgram } := by unfold PowerOn; decide

/-- A halted state, and a run with every operation and a load that is rejected. -/
theorem witness_HaltedUntilLoad :
    { base with run := .halted }.run = .halted ∧ [(0x12 : Byte), 0x00].length ≤ 3584 ∧
    ∀ bytes, HostOp.loadProgram bytes ∈
      [.step (noKeys 0), .stepBatch 32 noKeys, .tickTimers, .clearDirty, .writeKeys base.keys,
        .loadProgram (List.replicate 3585 (0x12 : Byte))] → bytes.length > 3584 := by
  refine ⟨rfl, by decide, fun bytes h => ?_⟩
  simp only [List.mem_cons, HostOp.loadProgram.injEq, reduceCtorEq, false_or, List.not_mem_nil, or_false] at h
  simp only [h, List.length_replicate]; omega

theorem witness_TickCountsTheTimersDown :
    { base with run := .noProgram }.run ≠ .running ∧ { base with st := 1, dt := 255 }.run = .running := by decide

theorem witness_OnlyClearDirtyClears : HostOp.tickTimers ≠ .clearDirty ∧ State.reset.dirty = true := ⟨nofun, rfl⟩

theorem witness_BatchRunsStepByStep :
    base.run = .running ∧ (base.stepWith (noKeys 0)).2 = .ok false ∧
    ((base.withFetchWord 16 0x00E0).stepWith (noKeys 0)).2 = .ok true ∧ { base with run := .halted }.run ≠ .running := by
  decide

theorem witness_KeyWaitUsesUpTheBatch :
    awaitingKey (base.withFetchWord 16 0xFF0A) ∧ ∀ k (j : Fin 16), (noKeys k).keys[j] = false :=
  ⟨⟨rfl, rfl, ⟨15, rfl⟩, by decide⟩, fun _ j => by simp [noKeys]⟩

theorem witness_SysIsNoOperation : (0x000 : Addr) ≠ 0x0E0 ∧ (0x000 : Addr) ≠ 0x0EE := by decide

/-- SP at 16, 1 and 0. -/
theorem witness_ReturnPopsTheStack :
    (15 : Fin 16).val + 1 = { base with sp := 16 }.sp.val ∧ (0 : Fin 16).val + 1 = { base with sp := 1 }.sp.val ∧
    base.sp.val = 0 := by decide

/-- SP at 0, 15 and 16. -/
theorem witness_CallPushesItsOwnAddress :
    (0 : Fin 16).val = base.sp.val ∧ (15 : Fin 16).val = { base with sp := 15 }.sp.val ∧
    { base with sp := 16 }.sp.val = 16 := by decide

theorem witness_CallThenReturn : { base with sp := 15 }.sp.val < 16 ∧ base.sp.val < 16 := by decide

/-- Each of the five forms with X = F. -/
theorem witness_FlagIsWrittenBeforeTheResult :
    let s := withV [(15, 0xFF), (1, 0x01)]
    (s.v[15].toNat + s.v[1].toNat) % 256 = 0 ∧ (s.v[15].toNat + s.v[1].toNat) / 256 = 1 ∧
    (s.v[15].toNat + 256 - s.v[1].toNat) / 256 = 1 ∧ (s.v[1].toNat + 256 - s.v[15].toNat) / 256 = 0 ∧
    s.v[15].toNat / 2 = 127 ∧ s.v[15].toNat * 2 % 256 = 254 := by decide

theorem witness_RandomByteIsMasked : { base with draws := [254, 0] }.draws = 254 :: [0] := rfl

theorem witness_RandomResultIsASubset :
    exec (.rnd 3 0x00) { base with draws := [254] } = .next { base with drawCount := 1, pc := 0x202 } ∧
    exec (.rnd 3 0xFF) { base with draws := [0] } =
      .next { base with v := base.v.set 3 0x01, drawCount := 1, pc := 0x202 } := ⟨rfl, rfl⟩

theorem witness_AnyTwoDrawsAreAllowed : (0x01 : Byte) ≠ 0 ∧ (0xFF : Byte) ≠ 0 ∧ (0 : Reg) ≠ 15 := by decide

/-- I at the last address that fits and one beyond. -/
theorem witness_StoreDecimalDigits : (0xFFD#16).toNat + 2 ≤ 0xFFF ∧ (0xFFE#16).toNat + 2 > 0xFFF := by decide

theorem witness_StoreRegisters :
    (0xFF0#16).toNat + (15 : Reg).val ≤ 0xFFF ∧ (0xFFF#16).toNat + (0 : Reg).val ≤ 0xFFF ∧
    (0xFF1#16).toNat + (15 : Reg).val > 0xFFF ∧ (0xFF0#16).toNat + 15 ≤ 0xFFF ∧ (0 : Reg) ≤ 15 := by decide

theorem witness_LoadRegisters :
    (0xFF0#16).toNat + (15 : Reg).val ≤ 0xFFF ∧ (0x1000#16).toNat + (0 : Reg).val > 0xFFF := by decide

/-- The last digit and the last row, in a state that loaded a font other than the default one. -/
theorem witness_GlyphOfTheLoadedFont :
    [(0x12 : Byte)].length ≤ 3584 ∧ ∀ m, m = (base.loadProgram [0x12] (Vector.replicate _ 0xAA)).1.mem →
      { withV [(5, 15)] with mem := m }.mem = (base.loadProgram [0x12] (Vector.replicate _ 0xAA)).1.mem ∧
      { withV [(5, 15)] with mem := m }.v[5].toNat = (15 : Fin 16).val := ⟨by decide, fun _ h => ⟨h, rfl⟩⟩

theorem witness_StoredBytesAreFetchedNext :
    let s := { withV [(0, 0x12), (1, 0x02)] with i := 0x202 }
    let t := { withBytes s 0x202 [0x12, 0x02] with pc := 0x202 }
    s.i.toNat + (1 : Reg).val ≤ 0xFFF ∧ exec (.ldMemVx 1) s = .next t ∧ (0 : Reg) < 1 ∧
    t.pc.toNat = s.i.toNat + (0 : Reg).val ∧ (1 : Reg).val = (0 : Reg).val + 1 :=
  ⟨by decide, rfl, by decide, by decide, by decide⟩

/-- No rows at any I; the last byte alone; fifteen rows to the end; and one byte too many. -/
theorem witness_DrawInvertsTheSpritePixels :
    (0 : Nibble) = 0 ∧ (0xFFF#16).toNat + (1 : Nibble).toNat - 1 ≤ 0xFFF ∧
    (0xFF1#16).toNat + (15 : Nibble).toNat - 1 ≤ 0xFFF ∧
    ((2 : Nibble) ≠ 0 ∧ (0xFFF#16).toNat + (2 : Nibble).toNat - 1 > 0xFFF) ∧
    pixel (flipPixel blankScreen 63 31) 63 31 = true ∧
    underSetBit (Memory.write [] 0x300 0xFF) 0x300 63 31 1 63 31 = true ∧
    underSetBit (Memory.write [] 0x300 0xFF) 0x300 64 31 1 63 31 = false := by decide

theorem witness_DrawingTwiceRestores :
    (1 : Reg) ≠ 15 ∧ (2 : Reg) ≠ 15 ∧ (0x050#16).toNat + (5 : Nibble).toNat - 1 ≤ 0xFFF := by decide

/-- The last key index and the first that is none. -/
theorem witness_KeySkips :
    (15 : Fin 16).val = (withV [(5, 0x0F)]).v[5].toNat ∧ (withV [(5, 0x10)]).v[5].toNat > 0x0F := by decide

theorem witness_KeyWaitPolls :
    (∀ k : Fin 16, base.keys[k] = false) ∧ (pressing base [15]).keys[(15 : Fin 16)] = true ∧
    (∀ j : Fin 16, j < 15 → (pressing base [15]).keys[j] = false) := by decide

theorem witness_RegisterFrame :
    exec (.addReg 1 2) base = .next { base with pc := 0x202 } ∧ ¬writesReg (.addReg 1 2) 0 ∧ ¬writesReg (.ldVxMem 14) 15 := by
  refine ⟨rfl, ?_⟩; unfold writesReg; decide

/-- The bytes just before and just after the stored ones. -/
theorem witness_MemoryFrame :
    let s := { withV [(0, 5)] with i := 0x300 }
    exec (.ldMemVx 0) s = .next { s with mem := [(0x300, 5)], pc := 0x202 } ∧
    ¬(s.i.toNat ≤ 0x2FF ∧ 0x2FF < s.i.toNat + storedBytes (.ldMemVx 0)) ∧
    ¬(s.i.toNat ≤ 0x301 ∧ 0x301 < s.i.toNat + storedBytes (.ldMemVx 0)) := ⟨rfl, by decide, by decide⟩

/-- A next state in which the premise of each clause holds. -/
theorem witness_SpecialStateFrame :
    exec (.ldI 0x300) base = .next { base with i := 0x300, pc := 0x202 } ∧ (0x300 : Word) ≠ base.i ∧
    exec (.call 0x400) base = .next { base with stack := base.stack.set 0 0x200, sp := 1, pc := 0x400 } ∧
    (base.stack.set 0 0x200)[(0 : Fin 16)] ≠ base.stack[(0 : Fin 16)] ∧
    exec (.ldDtVx 0) { base with dt := 7 } = .next { base with pc := 0x202 } ∧ base.dt ≠ 7 ∧
    exec (.ldStVx 0) { base with st := 7 } = .next { base with pc := 0x202 } ∧ base.st ≠ 7 ∧
    exec .cls base = .next { base with dirty := true, pc := 0x202 } ∧ base.dirty ≠ true ∧
    exec (.rnd 3 0x00) { base with draws := [0] } = .next { base with drawCount := 1, pc := 0x202 } ∧
    exec .ret base = .next (haltedOn base .stackUnderflow (some 0x00EE)) ∧ base.run ≠ .halted :=
  ⟨rfl, by decide, rfl, by decide, rfl, by decide, rfl, by decide, rfl, by decide, rfl, rfl, by decide⟩

end Sys2Proof.Tests
end

/-! The invariant of the core under every handler, the step and every operation of the host; and the glyphs that a load
with any font leaves in memory. -/

namespace Sys2Proof.Safety

open Sys2Proof.Machine

/-! ## Answers that are a next state with a property -/

/-- The answer is a next state, and that state has the property. -/
def Ensures (P : State → Prop) (a : Answer) : Prop := ∃ t, a = .next t ∧ P t

section
variable {P : State → Prop} {a b : Answer} {s t : State}

theorem Ensures.next (h : P t) : Ensures P (.next t) := ⟨t, rfl, h⟩

theorem Ensures.ite {c : Prop} [Decidable c] (ha : c → Ensures P a) (hb : ¬c → Ensures P b) :
    Ensures P (if c then a else b) := by
  split
  · exact ha ‹c›
  · exact hb ‹¬c›

theorem Ensures.of_eq_next (h : Ensures P a) (ha : a = .next t) : P t := by
  obtain ⟨u, hu, hP⟩ := h
  cases hu.symm.trans ha
  exact hP

end

/-! ## The invariant under the operations of a handler -/

theorem addrOperand_toNat (nnn : Addr) : (addrOperand nnn).toNat = nnn.toNat := by
  have := nnn.isLt
  simp only [addrOperand, BitVec.toNat_setWidth]
  omega

theorem zext_toNat (b : Byte) : (zext b).toNat = b.toNat := by
  have := b.isLt
  simp only [zext, BitVec.toNat_setWidth]
  omega

/-- A target of BNNN is at most 0xFFF + 0xFF (R36, R176). -/
theorem addrOperand_add_zext_le (nnn : Addr) (b : Byte) : (addrOperand nnn + zext b).toNat ≤ pcMax := by
  have := nnn.isLt
  have := b.isLt
  rw [BitVec.toNat_add, addrOperand_toNat, zext_toNat]
  simp only [pcMax]
  omega

/-- An advance by at most 4 from an address that can be fetched does not wrap (R36). -/
theorem add_le_pcMax {w k : Word} (hw : w.toNat ≤ 0xFFE) (hk : k.toNat ≤ 4) : (w + k).toNat ≤ pcMax := by
  rw [BitVec.toNat_add]
  simp only [pcMax]
  omega

namespace Inv

variable {s : State}

/-- The invariant speaks of memory, PC, the call stack, the run state and the fault record; any other field is free. -/
theorem update (h : Inv s) {v i dt st fb dirty keys draws drawCount} :
    Inv { s with v := v, i := i, dt := dt, st := st, fb := fb, dirty := dirty, keys := keys, draws := draws,
                 drawCount := drawCount } :=
  ⟨h.memWf, h.pcBound, h.returns, h.record⟩

theorem writeBytes (h : Inv s) {a : Nat} {bs : List Byte} (ha : a + bs.length ≤ 4096) :
    Inv { s with mem := Memory.writeBytes s.mem a bs } :=
  ⟨Memory.writeBytes_wf bs h.memWf ha, h.pcBound, h.returns, h.record⟩

theorem jump (h : Inv s) {w : Word} (hw : w.toNat ≤ pcMax) : Inv (s.jump w) :=
  ⟨h.memWf, hw, h.returns, h.record⟩

theorem jump_addrOperand (h : Inv s) (nnn : Addr) : Inv (s.jump (addrOperand nnn)) :=
  h.jump (by have := nnn.isLt; rw [addrOperand_toNat]; simp only [pcMax]; omega)

theorem advance (h : Inv s) (hpc : s.pc.toNat ≤ 0xFFE) : Inv s.advance :=
  h.jump (add_le_pcMax hpc (by decide))

theorem skipWhen (h : Inv s) (hpc : s.pc.toNat ≤ 0xFFE) (c : Bool) : Inv (s.skipWhen c) := by
  rw [State.skipWhen_eq]
  refine h.jump ?_
  split <;> exact add_le_pcMax hpc (by decide)

/-- A pop leaves fewer entries to be return addresses. -/
theorem pop (h : Inv s) : Inv s.pop where
  memWf := h.memWf
  pcBound := h.pcBound
  returns k hk := h.returns k (by rw [State.pop_sp] at hk; dsimp only at hk; omega)
  record := h.record

/-- The top of a stack that is not empty is a return address (R154). -/
theorem top_le (h : Inv s) (hsp : s.sp.val ≠ 0) : s.top.toNat ≤ 0xFFE :=
  h.returns ⟨s.sp.val - 1, by omega⟩ (by dsimp only; omega)

/-- Pushing the address of a fetched instruction keeps the return addresses those of fetched ones (R154, R157). -/
theorem push (h : Inv s) {w : Word} (hw : w.toNat ≤ 0xFFE) : Inv (s.push w) where
  memWf := h.memWf
  pcBound := h.pcBound
  returns k hk := by
    rw [State.push_sp] at hk
    dsimp only at hk
    simp only [State.push_stack, Fin.getElem_fin, Vector.getElem_setIfInBounds]
    split
    · exact hw
    · exact h.returns k (by omega)
  record := h.record

/-- A fault entry writes a record that agrees with the halted run state (R302). -/
theorem takeFault (h : Inv s) {c : FaultCode} {op : Option Word} (hc : c ≠ .none)
    (hop : op = none ↔ c = .fetchOutOfRange) : Inv (s.takeFault c op) :=
  ⟨h.memWf, h.pcBound, h.returns, ⟨fun _ => hc, fun _ => rfl⟩, fun _ => hop⟩

/-- A handler raises neither NONE nor the fetch fault, and records its opcode (R302). -/
theorem raise_ensures (h : Inv s) {c : FaultCode} {i : Instr} (hc : c ≠ .none := by decide)
    (hf : c ≠ .fetchOutOfRange := by decide) : Ensures Inv (raise c i s) :=
  .next (h.takeFault hc ⟨nofun, (absurd · hf)⟩)

/-! ## The invariant under the handlers and the step -/

/-- A block store that passed its check lies inside memory (R67). -/
theorem store_ensures (h : Inv s) (hpc : s.pc.toNat ≤ 0xFFE) {a n : Nat} {bs : List Byte} (hn : bs.length = n + 1)
    (hc : memCheck a (n + 1) = true) :
    Ensures Inv (.next ({ s with mem := Memory.writeBytes s.mem a bs } : State).advance) :=
  .next ((h.writeBytes (by rw [memCheck_iff] at hc; omega)).advance hpc)

theorem execSkp_ensures (h : Inv s) (hpc : s.pc.toNat ≤ 0xFFE) (x : Reg) : Ensures Inv (execSkp x s) := by
  unfold execSkp
  cases s.keyAt (s.reg x) with
  | some pressed => exact .next (h.skipWhen hpc _)
  | none => exact h.raise_ensures

theorem execSknp_ensures (h : Inv s) (hpc : s.pc.toNat ≤ 0xFFE) (x : Reg) : Ensures Inv (execSknp x s) := by
  unfold execSknp
  cases s.keyAt (s.reg x) with
  | some pressed => exact .next (h.skipWhen hpc _)
  | none => exact h.raise_ensures

theorem execLdVxK_ensures (h : Inv s) (hpc : s.pc.toNat ≤ 0xFFE) (x : Reg) : Ensures Inv (execLdVxK x s) := by
  unfold execLdVxK
  cases s.leastKey with
  | some k => exact .next (h.update.advance hpc)
  | none => exact .next h

/-- Every handler, run from a PC that can be fetched, answers a next state that keeps the invariant. -/
theorem exec_ensures (h : Inv s) (hpc : s.pc.toNat ≤ 0xFFE) (i : Instr) : Ensures Inv (exec i s) :=
  match i with
  | .sys _ => .next (h.advance hpc)
  | .ldImm _ _ | .addImm _ _ | .ldReg _ _ | .orReg _ _ | .andReg _ _ | .xorReg _ _ | .addReg _ _ | .subReg _ _
  | .shr _ _ | .subnReg _ _ | .shl _ _ | .rnd _ _ | .cls | .ldI _ | .addIVx _ | .ldFVx _ | .ldVxDt _ | .ldDtVx _
  | .ldStVx _ => .next (h.update.advance hpc)
  | .seImm _ _ | .sneImm _ _ | .seReg _ _ | .sneReg _ _ => .next (h.skipWhen hpc _)
  | .jp nnn => .next (h.jump_addrOperand nnn)
  | .jpV0 nnn => .next (h.jump (addrOperand_add_zext_le nnn _))
  | .ret => .ite (fun _ => h.raise_ensures) fun hsp => .next (h.pop.jump (add_le_pcMax (h.top_le hsp) (by decide)))
  | .call nnn => .ite (fun _ => h.raise_ensures) fun _ => .next ((h.push hpc).jump_addrOperand nnn)
  | .drw _ _ _ => .ite (fun _ => .next (h.update.advance hpc)) fun _ => h.raise_ensures
  | .ldBVx _ => .ite (h.store_ensures hpc (bcdDigits_length _)) fun _ => h.raise_ensures
  | .ldMemVx x => .ite (h.store_ensures hpc (State.regsUpTo_length s x)) fun _ => h.raise_ensures
  | .ldVxMem _ => .ite (fun _ => .next (h.update.advance hpc)) fun _ => h.raise_ensures
  | .skp x => h.execSkp_ensures hpc x
  | .sknp x => h.execSknp_ensures hpc x
  | .ldVxK x => h.execLdVxK_ensures hpc x

/-- A step keeps the invariant, in each of its four cases (R130). -/
theorem of_step {t : State} (h : Inv s) (hs : step s = .next t) : Inv t := by
  obtain ⟨-, rfl⟩ | ⟨-, -, rfl⟩ | ⟨-, -, -, rfl⟩ | ⟨-, hpc, i, -, he⟩ := step_cases hs
  · exact h
  · exact h.takeFault (by decide) (by decide)
  · exact h.takeFault (by decide) ⟨nofun, nofun⟩
  · exact (h.exec_ensures hpc i).of_eq_next he

/-! ## The invariant under the operations of the host -/

/-- Neither the inputs of a step nor its return value matter to the invariant (R130). -/
theorem stepWith (h : Inv s) (inp : StepInput) : Inv (s.stepWith inp).1 := by
  have hin : Inv (s.supply inp) := h.update
  simp only [State.stepWith]
  cases hs : step (s.supply inp) with
  | next t => exact hin.of_step hs
  | fault r => exact hin
  | refused r => exact hin

/-- The loop of a batch keeps the invariant, by induction on the steps left (R140). -/
theorem of_batchFrom (inputs : Nat → StepInput) (fuel count : Nat) (h : Inv s) :
    Inv (batchFrom inputs fuel count s).1 := by
  induction fuel generalizing count s with
  | zero => exact h
  | succ fuel ih =>
    have hstep := h.stepWith (inputs count)
    simp only [batchFrom]
    split
    · generalize s.stepWith (inputs count) = r at hstep ⊢
      obtain ⟨t, result⟩ := r
      cases result with
      | ok drew =>
        cases drew with
        | false => exact ih _ hstep
        | true => exact hstep
      | halted code => exact hstep
      | notRunning => exact hstep
    · exact h

theorem tickTimers (h : Inv s) : Inv s.tickTimers.1 := by
  unfold State.tickTimers
  split
  · exact h.update
  · exact h

/-- A load that fits starts from nothing: the invariant holds after it whatever it was before (R350, R353). -/
theorem of_loaded (s : State) {bytes : List Byte} (hb : bytes.length ≤ 3584) (font : Font) :
    Inv (s.loadProgram bytes font).1 := by
  rw [State.loadProgram_loaded s bytes font hb]
  have hpc : State.reset.pc.toNat ≤ pcMax := by decide
  exact ⟨loadedMemory_wf font bytes hb, hpc, fun _ hk => absurd hk (Nat.not_lt_zero _),
    ⟨nofun, (absurd rfl ·)⟩, nofun⟩

theorem loadProgram (h : Inv s) (bytes : List Byte) (font : Font) : Inv (s.loadProgram bytes font).1 := by
  by_cases hb : bytes.length ≤ 3584
  · exact of_loaded s hb font
  · rw [State.loadProgram_rejected s bytes font (by omega)]
    exact h

theorem apply (h : Inv s) (font : Font) (op : HostOp) : Inv (s.apply op font) := by
  cases op with
  | step inp => exact h.stepWith inp
  | stepBatch maxSteps inputs => exact h.of_batchFrom inputs maxSteps 0
  | tickTimers => exact h.tickTimers
  | loadProgram bytes => exact h.loadProgram bytes font
  | clearDirty => exact h.update
  | writeKeys keys => exact h.update

/-- A host run keeps the invariant, by induction on its operations (R9). -/
theorem applyAll (h : Inv s) (font : Font) (ops : List HostOp) : Inv (s.applyAll ops font) := by
  induction ops generalizing s with
  | nil => exact h
  | cons op ops ih => exact ih (h.apply font op)

end Inv

/-- Settles O18, operation by operation and then by induction on the run. -/
theorem hostRunsKeepInvariant : Obligations.HostRunsKeepInvariant :=
  fun font => ⟨fun _ op h => h.apply font op, fun _ ops h => h.applyAll font ops⟩

/-! ## The glyphs of a loaded font -/

/-- A load puts the font at 0x050, out of reach of the program's bytes (R51, R350). -/
theorem loadedMemory_read_font (font : Font) (bytes : List Byte) {k : Nat} (hk : k < 80) :
    Memory.read (loadedMemory font bytes) (0x050 + k) = font[k] := by
  rw [loadedMemory_read, if_neg (by omega), if_pos (by omega), Nat.add_sub_cancel_left]
  simp [List.getD_eq_getElem?_getD, hk]

/-- The glyph of a digit does not wrap (R224). -/
theorem glyphAddr_toNat (b : Byte) : (glyphAddr b).toNat = 0x050 + 5 * b.toNat := by
  have := b.isLt
  simp only [glyphAddr, Config.fontBase, Config.glyphBytes, BitVec.toNat_ofNat]
  omega

/-- Settles O59: FX29 sets I to 0x050 + 5 d, where the load put the glyph of the digit d. -/
theorem glyphOfTheLoadedFont : Obligations.GlyphOfTheLoadedFont := by
  intro s t bytes font x d r hb hmem hd
  refine ⟨_, rfl, ?_⟩
  have haddr : (glyphAddr (t.reg x)).toNat + r.val = 0x050 + (5 * d.val + r.val) := by
    rw [glyphAddr_toNat, State.reg_eq, hd, Nat.add_assoc]
  show Memory.read t.mem ((glyphAddr (t.reg x)).toNat + r.val) = _
  rw [haddr, hmem, State.loadProgram_loaded s bytes font hb]
  exact loadedMemory_read_font font bytes (by omega)

end Sys2Proof.Safety

/-! What an instruction does, said once: it raises its own fault, waits for a key, or has its effect. From it, the frames of
the registers and of the special state, and the bounds of PC; and canonical memories and the reset state. -/

namespace Sys2Proof.Safety

open Sys2Proof.Machine

/-! ## The effect of an instruction whose own check passes -/

/-- The state an instruction leaves when it raises no fault and waits for no key: the result of its meaning, without the
checks. `exec_cases` ties it to `exec`. -/
def effect : Instr → State → State
  | .sys _, s => s.advance
  | .cls, s => ({ s with fb := blankScreen, dirty := true } : State).advance
  | .ret, s => s.pop.jump (s.top + instrStep)
  | .jp nnn, s => s.jump (addrOperand nnn)
  | .call nnn, s => (s.push s.pc).jump (addrOperand nnn)
  | .seImm x nn, s => s.skipWhen (s.reg x == nn)
  | .sneImm x nn, s => s.skipWhen (s.reg x != nn)
  | .seReg x y, s => s.skipWhen (s.reg x == s.reg y)
  | .sneReg x y, s => s.skipWhen (s.reg x != s.reg y)
  | .ldImm x nn, s => (s.setReg x nn).advance
  | .addImm x nn, s => (s.setReg x (sumByte (s.reg x) nn)).advance
  | .ldReg x y, s => (s.setReg x (s.reg y)).advance
  | .orReg x y, s => (s.setReg x (s.reg x ||| s.reg y)).advance
  | .andReg x y, s => (s.setReg x (s.reg x &&& s.reg y)).advance
  | .xorReg x y, s => (s.setReg x (s.reg x ^^^ s.reg y)).advance
  | .addReg x y, s => (s.setFlagged (carryOut (s.reg x) (s.reg y)) x (sumByte (s.reg x) (s.reg y))).advance
  | .subReg x y, s => (s.setFlagged (notBorrow (s.reg x) (s.reg y)) x (diffByte (s.reg x) (s.reg y))).advance
  | .shr x _, s => (s.setFlagged (lowBit (s.reg x)) x (s.reg x >>> 1)).advance
  | .subnReg x y, s => (s.setFlagged (notBorrow (s.reg y) (s.reg x)) x (diffByte (s.reg y) (s.reg x))).advance
  | .shl x _, s => (s.setFlagged (highBit (s.reg x)) x (s.reg x <<< 1)).advance
  | .ldI nnn, s => ({ s with i := addrOperand nnn } : State).advance
  | .jpV0 nnn, s => s.jump (addrOperand nnn + zext (s.reg 0))
  | .rnd x nn, s => (s.useDraw.setReg x (nn &&& drawByte s.nextDraw)).advance
  | .drw x y n, s =>
    let d := drawSprite s.mem (s.dataAddr 0) (s.reg x).toNat (s.reg y).toNat n.toNat (s.fb, false)
    (({ s with fb := d.1, dirty := true } : State).setReg vf (flagByte d.2)).advance
  | .skp x, s => s.skipWhen ((s.keyAt (s.reg x)).getD false)
  | .sknp x, s => s.skipWhen !((s.keyAt (s.reg x)).getD false)
  | .ldVxDt x, s => (s.setReg x s.dt).advance
  | .ldVxK x, s => (s.setReg x (BitVec.ofNat 8 (s.leastKey.getD 0))).advance
  | .ldDtVx x, s => ({ s with dt := s.reg x } : State).advance
  | .ldStVx x, s => ({ s with st := s.reg x } : State).advance
  | .addIVx x, s => ({ s with i := s.i + zext (s.reg x) } : State).advance
  | .ldFVx x, s => ({ s with i := glyphAddr (s.reg x) } : State).advance
  | .ldBVx x, s => ({ s with mem := Memory.writeBytes s.mem (s.dataAddr 0) (bcdDigits (s.reg x)) } : State).advance
  | .ldMemVx x, s => ({ s with mem := Memory.writeBytes s.mem (s.dataAddr 0) (s.regsUpTo x) } : State).advance
  | .ldVxMem x, s => ({ s with v := loadRegs s.mem (s.dataAddr 0) (x.val + 1) s.v } : State).advance

/-- What the handler of `i` can make of the state `s`. -/
inductive ExecCase (i : Instr) (s : State) : State → Prop
  /-- Its own check fails: the fault entry of R302. -/
  | fault {c : FaultCode} (hc : ownFault i s = some c) : ExecCase i s (s.takeFault c (some (encode i)))
  /-- FX0A with no key pressed (R266). -/
  | waits {x : Reg} (hi : i = .ldVxK x) (hk : s.leastKey = none) : ExecCase i s s
  /-- Its check passes, and a key is pressed where it asks for one. -/
  | done (hf : ownFault i s = none) (hk : ∀ x, i = .ldVxK x → s.leastKey ≠ none) : ExecCase i s (effect i s)

/-! ## The checks, as `ownFault` states them -/

section
variable (s : State)

/-- The check of a block of n + 1 bytes at I (R67). -/
theorem memCheck_block_iff (n : Nat) : memCheck (s.dataAddr 0) (n + 1) = true ↔ ¬ s.i.toNat + n > 0xFFF := by
  rw [memCheck_iff, State.dataAddr]
  omega

/-- The check of the sprite of DXYN, which may have no rows (R249). -/
theorem memCheck_sprite_iff (n : Nibble) :
    memCheck (s.dataAddr 0) n.toNat = true ↔ ¬(n ≠ 0 ∧ s.i.toNat + n.toNat - 1 > 0xFFF) := by
  have hn : n = 0 ↔ n.toNat = 0 := BitVec.toNat_inj.symm
  rw [memCheck_iff, State.dataAddr, ne_eq, hn]
  omega

/-- A key index reads no slot exactly when it is above 0x0F (R261). -/
theorem keyAt_eq_none_iff (b : Byte) : s.keyAt b = none ↔ b.toNat > 0x0F := by
  rw [State.keyAt_eq]
  split <;> simp <;> omega

variable {s}

theorem not_gt_of_keyAt_eq_some {b : Byte} {pressed : Bool} (hk : s.keyAt b = some pressed) : ¬ b.toNat > 0x0F :=
  fun hb => nomatch hk.symm.trans ((keyAt_eq_none_iff s b).mpr hb)

/-! ## Every handler falls into one of the cases -/

theorem execSkp_cases (x : Reg) : Ensures (ExecCase (.skp x) s) (execSkp x s) := by
  unfold execSkp
  cases hk : s.keyAt (s.reg x) with
  | some pressed =>
    have heffect : effect (.skp x) s = s.skipWhen pressed := by simp only [effect, hk, Option.getD_some]
    exact .next (heffect ▸ .done (if_neg (not_gt_of_keyAt_eq_some hk)) nofun)
  | none => exact .next (.fault (if_pos ((keyAt_eq_none_iff s _).mp hk)))

theorem execSknp_cases (x : Reg) : Ensures (ExecCase (.sknp x) s) (execSknp x s) := by
  unfold execSknp
  cases hk : s.keyAt (s.reg x) with
  | some pressed =>
    have heffect : effect (.sknp x) s = s.skipWhen !pressed := by simp only [effect, hk, Option.getD_some]
    exact .next (heffect ▸ .done (if_neg (not_gt_of_keyAt_eq_some hk)) nofun)
  | none => exact .next (.fault (if_pos ((keyAt_eq_none_iff s _).mp hk)))

theorem execLdVxK_cases (x : Reg) : Ensures (ExecCase (.ldVxK x) s) (execLdVxK x s) := by
  unfold execLdVxK
  cases hk : s.leastKey with
  | some k =>
    have heffect : effect (.ldVxK x) s = (s.setReg x (BitVec.ofNat 8 k)).advance := by
      simp only [effect, hk, Option.getD_some]
    exact .next (heffect ▸ .done rfl fun _ _ => by simp [hk])
  | none => exact .next (.waits rfl hk)

/-- A check that decides between the effect and the fault. -/
theorem Ensures.check {i : Instr} {c : FaultCode} {p q : Prop} [Decidable p] [Decidable q] (hpq : p ↔ ¬q)
    (hf : ownFault i s = if q then some c else none := by rfl)
    (hk : ∀ x, i = .ldVxK x → s.leastKey ≠ none := by nofun) :
    Ensures (ExecCase i s) (if p then .next (effect i s) else raise c i s) :=
  .ite (fun hp => .next (.done (hf.trans (if_neg (hpq.mp hp))) hk))
    fun hp => .next (.fault (hf.trans (if_pos (not_not.mp (mt hpq.mpr hp)))))

theorem exec_ensures_cases (i : Instr) (s : State) : Ensures (ExecCase i s) (exec i s) :=
  match i with
  | .sys _ | .cls | .jp _ | .seImm _ _ | .sneImm _ _ | .seReg _ _ | .sneReg _ _ | .jpV0 _ | .ldImm _ _ | .addImm _ _
  | .ldReg _ _ | .orReg _ _ | .andReg _ _ | .xorReg _ _ | .addReg _ _ | .subReg _ _ | .shr _ _ | .subnReg _ _
  | .shl _ _ | .ldI _ | .rnd _ _ | .ldVxDt _ | .ldDtVx _ | .ldStVx _ | .addIVx _ | .ldFVx _ => .next (.done rfl nofun)
  | .ret | .call _ => .ite (fun h => .next (.fault (if_pos h))) fun h => .next (.done (if_neg h) nofun)
  | .drw _ _ n => .check (memCheck_sprite_iff s n)
  | .ldBVx _ => .check (memCheck_block_iff s 2)
  | .ldMemVx x | .ldVxMem x => .check (memCheck_block_iff s x.val)
  | .skp x => execSkp_cases x
  | .sknp x => execSknp_cases x
  | .ldVxK x => execLdVxK_cases x

/-- What a handler can do: raise its own fault, wait for a key, or have its effect (R266, R302). -/
theorem exec_cases {i : Instr} {t : State} (h : exec i s = .next t) : ExecCase i s t :=
  (exec_ensures_cases i s).of_eq_next h

end

/-! ## The frame of the registers -/

section
variable {s : State} {i : Instr}

theorem setReg_getElem_of_ne {x r : Reg} {b : Byte} (h : r ≠ x) : (s.setReg x b).v[r] = s.v[r] :=
  (State.reg_setReg s x r b).trans (if_neg h)

theorem setFlagged_getElem_of_ne {f : Bool} {x r : Reg} {b : Byte} (h : ¬(r = x ∨ r = 15)) :
    (s.setFlagged f x b).v[r] = s.v[r] :=
  (setReg_getElem_of_ne (not_or.mp h).1).trans (setReg_getElem_of_ne (not_or.mp h).2)

/-- An effect writes no register but those of `writesReg` (R33). -/
theorem effect_getElem_of_not_writesReg {r : Reg} (h : ¬writesReg i r) : (effect i s).v[r] = s.v[r] := by
  cases i with
  | ldImm x _ | addImm x _ | ldReg x _ | orReg x _ | andReg x _ | xorReg x _ | rnd x _ | ldVxDt x | ldVxK x =>
    exact setReg_getElem_of_ne h
  | addReg x _ | subReg x _ | shr x _ | subnReg x _ | shl x _ => exact setFlagged_getElem_of_ne h
  | drw x y n => exact setReg_getElem_of_ne h
  | ldVxMem x => exact (loadRegs_getElem ..).trans (if_neg fun hr => h (Nat.le_of_lt_succ hr))
  | _ => rfl

end

/-- Settles O56: a fault and a wait write no register, an effect only those it names. -/
theorem registerFrame : Obligations.RegisterFrame := by
  intro i s t r h hr
  cases exec_cases h with
  | fault => rfl
  | waits => rfl
  | done => exact effect_getElem_of_not_writesReg hr

/-! ## The frames of the other fields -/

section
variable {s : State} {i : Instr}

theorem index_writer_of_ne (h : (effect i s).i ≠ s.i) :
    (∃ nnn, i = .ldI nnn) ∨ (∃ x, i = .addIVx x) ∨ ∃ x, i = .ldFVx x := by
  cases i with
  | ldI nnn => exact .inl ⟨nnn, rfl⟩
  | addIVx x => exact .inr (.inl ⟨x, rfl⟩)
  | ldFVx x => exact .inr (.inr ⟨x, rfl⟩)
  | _ => exact absurd rfl h

theorem ret_or_call_of_sp_ne (h : (effect i s).sp ≠ s.sp) : i = .ret ∨ ∃ nnn, i = .call nnn := by
  cases i with
  | ret => exact .inl rfl
  | call nnn => exact .inr ⟨nnn, rfl⟩
  | _ => exact absurd rfl h

/-- A push writes the entry at SP and no other (R39). -/
theorem push_stack_of_ne {w : Word} {k : Fin 16} (h : k.val ≠ s.sp.val) : (s.push w).stack[k] = s.stack[k] := by
  rw [State.push_stack]
  exact Vector.getElem_setIfInBounds_ne k.isLt h.symm

theorem call_of_stack_ne {k : Fin 16} (h : (effect i s).stack[k] ≠ s.stack[k]) :
    (∃ nnn, i = .call nnn) ∧ k.val = s.sp.val := by
  cases i with
  | call nnn => exact ⟨⟨nnn, rfl⟩, Decidable.of_not_not fun hk => h (push_stack_of_ne hk)⟩
  | _ => exact absurd rfl h

theorem ldDtVx_of_dt_ne (h : (effect i s).dt ≠ s.dt) : ∃ x, i = .ldDtVx x := by
  cases i with
  | ldDtVx x => exact ⟨x, rfl⟩
  | _ => exact absurd rfl h

theorem ldStVx_of_st_ne (h : (effect i s).st ≠ s.st) : ∃ x, i = .ldStVx x := by
  cases i with
  | ldStVx x => exact ⟨x, rfl⟩
  | _ => exact absurd rfl h

theorem drawing_of_display_ne (h : (effect i s).fb ≠ s.fb ∨ (effect i s).dirty ≠ s.dirty) :
    (effect i s).dirty = true ∧ (i = .cls ∨ ∃ x y n, i = .drw x y n) := by
  cases i with
  | cls => exact ⟨rfl, .inl rfl⟩
  | drw x y n => exact ⟨rfl, .inr ⟨x, y, n, rfl⟩⟩
  | _ => exact absurd h (by rintro (h | h) <;> exact h rfl)

theorem effect_keys : (effect i s).keys = s.keys := by
  cases i <;> rfl

theorem rnd_of_draws_ne (h : (effect i s).draws ≠ s.draws ∨ (effect i s).drawCount ≠ s.drawCount) :
    ∃ x nn, i = .rnd x nn := by
  cases i with
  | rnd x nn => exact ⟨x, nn, rfl⟩
  | _ => exact absurd h (by rintro (h | h) <;> exact h rfl)

theorem effect_run_fault : (effect i s).run = s.run ∧ (effect i s).fault = s.fault := by
  cases i <;> exact ⟨rfl, rfl⟩

end

/-- Settles O58: a fault changes the run state and the record alone, a wait nothing, an effect the fields of its own. -/
theorem specialStateFrame : Obligations.SpecialStateFrame := by
  intro i s t h
  cases exec_cases h with
  | fault hc => simp [hc]
  | waits => simp
  | done =>
    exact ⟨index_writer_of_ne, ret_or_call_of_sp_ne, fun _ => call_of_stack_ne, ldDtVx_of_dt_ne, ldStVx_of_st_ne,
      drawing_of_display_ne, effect_keys, rnd_of_draws_ne, fun h => absurd h (by simp [effect_run_fault])⟩

/-! ## The program counter -/

section
variable {s : State}

/-- An advance by 2 from an address that can be fetched is exact (R36). -/
theorem add_two_toNat {w : Word} (hw : w.toNat ≤ 0xFFE) : (w + 2).toNat = w.toNat + 2 := by
  rw [BitVec.toNat_add]
  exact Nat.mod_eq_of_lt (by simp; omega)

theorem skipWhen_pc_toNat (hpc : s.pc.toNat ≤ 0xFFE) (c : Bool) :
    (s.skipWhen c).pc.toNat = s.pc.toNat + 2 ∨ (s.skipWhen c).pc.toNat = s.pc.toNat + 4 := by
  rw [State.skipWhen_eq]
  cases c with
  | false => exact .inl (add_two_toNat hpc)
  | true => exact .inr (by simp; omega)

end

/-- Settles O15: a fault and a wait keep PC; an effect advances it by 2 or 4, jumps to NNN or NNN + V0, or returns to the
top of the stack plus 2. -/
theorem programCounterNeverWraps : Obligations.ProgramCounterNeverWraps := by
  intro i s t hinv hpc h
  cases exec_cases h with
  | fault =>
    cases i with
    | jp | call | jpV0 | ret => exact hpc.trans (by decide)
    | _ => exact .inl rfl
  | waits hi =>
    subst hi
    exact .inl rfl
  | done hf =>
    cases i with
    | jp nnn | call nnn => exact (addrOperand_toNat nnn).trans_le (Nat.le_of_lt_succ nnn.isLt)
    | jpV0 nnn => exact addrOperand_add_zext_le nnn _
    | ret =>
      have hsp : s.sp.val ≠ 0 := fun hsp => nomatch (if_pos hsp).symm.trans hf
      have htop := hinv.top_le hsp
      exact (add_two_toNat htop).trans_le (Nat.add_le_add_right htop 2)
    | seImm | sneImm | seReg | sneReg | skp | sknp => exact .inr (skipWhen_pc_toNat hpc _)
    | _ => exact .inr (.inl (add_two_toNat hpc))

/-! ## The invariant at every step -/

/-- Settles O17, in each of the four cases of a step. -/
theorem stepKeepsInvariant : Obligations.StepKeepsInvariant := fun _ _ h hs => h.of_step hs

end Sys2Proof.Safety

namespace Sys2Proof.Machine

/-! ## Canonical memories -/

/-- A byte that differs from what its address reads as unlisted is listed. -/
theorem Memory.mem_of_read_ne {m : Memory} {a : Nat} (h : Memory.read m a ≠ Memory.resetByte a) :
    (a, Memory.read m a) ∈ m := by
  induction m with
  | nil => exact absurd rfl h
  | cons c m ih =>
    rw [Memory.read] at h ⊢
    split
    · rename_i hc
      exact List.mem_cons.mpr (.inl (by rw [← hc]))
    · rename_i hc
      rw [if_neg hc] at h
      exact List.mem_cons_of_mem c (ih h)

/-- A listed address reads its byte: no earlier entry of a rising list has the same address. -/
theorem Memory.read_of_mem {m : Memory} (hm : m.Pairwise fun c d => c.1 < d.1) {c : Host.Cell} (hc : c ∈ m) :
    Memory.read m c.1 = c.2 := by
  induction m with
  | nil => exact absurd hc List.not_mem_nil
  | cons d m ih =>
    obtain ⟨hd, hm⟩ := List.pairwise_cons.mp hm
    rw [Memory.read]
    rcases List.mem_cons.mp hc with rfl | hc
    · exact if_pos rfl
    · rw [if_neg (hd c hc).ne, ih hm hc]

/-- What a canonical memory lists is decided by what it reads. -/
theorem Memory.mem_iff_read {m : Memory} (hm : Memory.wf m = true) (c : Host.Cell) :
    c ∈ m ↔ Memory.read m c.1 = c.2 ∧ c.2 ≠ Memory.resetByte c.1 := by
  obtain ⟨hsorted, hcells⟩ := (Memory.wf_iff m).mp hm
  constructor
  · exact fun hc => ⟨Memory.read_of_mem hsorted hc, (hcells c hc).2⟩
  · rintro ⟨hread, hne⟩
    have := Memory.mem_of_read_ne (m := m) (a := c.1) (hread ▸ hne)
    rwa [hread] at this

/-- Settles O19: two canonical memories that read alike list the same cells, and a strictly rising list is determined by
its members. -/
theorem canonicalMemoriesAreEqualData : Obligations.CanonicalMemoriesAreEqualData := by
  intro m m' hm hm' hread
  have : Std.Irrefl fun c d : Host.Cell => c.1 < d.1 := ⟨fun c => Nat.lt_irrefl c.1⟩
  have : Std.Antisymm fun c d : Host.Cell => c.1 < d.1 := ⟨fun _ _ h h' => absurd h (Nat.lt_asymm h')⟩
  refine ((Memory.wf_iff m).mp hm).1.eq_of_mem_iff ((Memory.wf_iff m').mp hm').1 fun c => ?_
  rw [Memory.mem_iff_read hm, Memory.mem_iff_read hm', hread]

/-! ## Reset -/

/-- The load of the empty program with the default font is reset, but for the environment's fields (R350). -/
theorem State.loadProgram_nil_default (s : State) :
    (s.loadProgram [] fontData).1 =
      { State.reset with keys := s.keys, draws := s.draws, drawCount := s.drawCount } := by
  rw [State.loadProgram_loaded s [] fontData (Nat.zero_le _), loadedMemory_default]
  rfl

/-- Settles O22, field by field. -/
theorem resetIsTheEmptyLoad : Obligations.ResetIsTheEmptyLoad := by
  refine ⟨State.loadProgram_nil_default, rfl, rfl, rfl, rfl, rfl, rfl, rfl, rfl, fun r => ?_, pixel_blankScreen,
    fun _ => rfl⟩
  exact Vector.getElem_replicate r.isLt

/-- Settles O16: the reset state is the load of the empty program, and a load establishes the invariant. -/
theorem invariantHoldsAtReset : Obligations.InvariantHoldsAtReset := by
  have h := Safety.Inv.of_loaded State.reset (bytes := []) (Nat.zero_le _) fontData
  rwa [State.loadProgram_nil_default] at h

end Sys2Proof.Machine

/-! Memory: the bytes that FX55 leaves, which the next fetch reads, and the frame of memory. -/

namespace Sys2Proof.Safety

open Sys2Proof.Machine

section
variable {s : State} {i : Instr}

/-- FX55 leaves the k-th register up to VX at the k-th address from I (R229). -/
theorem effect_ldMemVx_read {x k : Reg} (h : k ≤ x) :
    Memory.read (effect (.ldMemVx x) s).mem (s.i.toNat + k.val) = s.v[k] := by
  have hkx := Fin.le_def.mp h
  have hblock : s.dataAddr 0 ≤ s.i.toNat + k.val ∧
      s.i.toNat + k.val < s.dataAddr 0 + (s.regsUpTo x).length := by
    rw [State.dataAddr, State.regsUpTo_length]
    omega
  have hindex : s.i.toNat + k.val - s.dataAddr 0 = k.val := Nat.add_sub_cancel_left ..
  refine (Memory.read_writeBytes ..).trans ?_
  rw [if_pos hblock, hindex, State.regsUpTo_getD s x k h]

/-- An effect stores to no address outside its `storedBytes` from I on (R66). -/
theorem effect_read_of_not_stored {a : Nat} (h : ¬(s.i.toNat ≤ a ∧ a < s.i.toNat + storedBytes i)) :
    Memory.read (effect i s).mem a = Memory.read s.mem a := by
  cases i with
  | ldBVx x => exact (Memory.read_writeBytes ..).trans (if_neg h)
  | ldMemVx x =>
    refine (Memory.read_writeBytes ..).trans (if_neg ?_)
    rwa [State.regsUpTo_length]
  | _ => rfl

end

/-- Settles O49: FX55 passes its check, so the two bytes at PC are those it stored for Vk and the register after it. -/
theorem storedBytesAreFetchedNext : Obligations.StoredBytesAreFetchedNext := by
  intro s t x k hx h hk hpc j hj
  have hjx : j ≤ x := Fin.le_def.mpr (hj.trans_le hk)
  cases exec_cases h with
  | fault hc => exact nomatch (if_neg (Nat.not_lt.mpr hx)).symm.trans hc
  | waits hi => cases hi
  | done =>
    rw [State.fetchWord_eq, hpc, Nat.add_assoc, ← hj, effect_ldMemVx_read hk.le, effect_ldMemVx_read hjx]

/-- Settles O57: a fault and a wait store nothing, an effect only to the bytes it names. -/
theorem memoryFrame : Obligations.MemoryFrame := by
  intro i s t a h ha
  cases exec_cases h with
  | fault => rfl
  | waits => rfl
  | done => exact effect_read_of_not_stored ha

end Sys2Proof.Safety

/-! The encoding: decode and encode are inverse on words and instructions, the words that are no instruction, and what the
core does with one. -/

namespace Sys2Proof

/-! ## A word from its family and fields, for each format of R92 -/

section
variable {op : Word} {f : BitVec 4}

theorem extractLsb'_eq_iff_family : op.extractLsb' 12 4 = f ↔ family op = f.toNat := BitVec.toNat_inj.symm

theorem family_lt (op : Word) : family op < 16 := (op.extractLsb' 12 4).isLt

theorem wordNNN_of_family (hf : family op = f.toNat) : wordNNN f (fieldNNN op) = op :=
  extractLsb'_eq_iff_family.mpr hf ▸ wordNNN_fields op

theorem wordXNN_of_family (hf : family op = f.toNat) : wordXNN f (fieldX op) (fieldNN op) = op :=
  extractLsb'_eq_iff_family.mpr hf ▸ wordXNN_fields op

theorem wordXYN_of_family (hf : family op = f.toNat) : wordXYN f (fieldX op) (fieldY op) (fieldN op) = op :=
  extractLsb'_eq_iff_family.mpr hf ▸ wordXYN_fields op

theorem wordXSS_of_family {nn : Byte} (hf : family op = f.toNat) (hnn : (fieldNN op).toNat = nn.toNat) :
    wordXNN f (fieldX op) nn = op :=
  BitVec.eq_of_toNat_eq hnn ▸ wordXNN_of_family hf

theorem wordXYS_of_family {n : Nibble} (hf : family op = f.toNat) (hn : (fieldN op).toNat = n.toNat) :
    wordXYN f (fieldX op) (fieldY op) n = op :=
  BitVec.eq_of_toNat_eq hn ▸ wordXYN_of_family hf

end

/-! ## Encoding inverts decoding, family by family -/

/-- `op` is the word of the well-formed instruction `i`. -/
def IsWordOf (op : Word) (i : Instr) : Prop := i.wellFormed = true ∧ encode i = op

section
variable {op : Word} {i : Instr}

/-- A SYS word is neither 00E0 nor 00EE, so its NNN is neither of theirs (R95). -/
theorem isWordOf_of_decode0 (hf : family op = 0x0) (h : decode0 op = .instr i) : IsWordOf op i := by
  have hop : wordNNN 0x0#4 (fieldNNN op) = op := wordNNN_of_family hf
  unfold decode0 at h
  split at h
  · cases h; exact ⟨rfl, Eq.symm ‹_›⟩
  · split at h
    · cases h; exact ⟨rfl, Eq.symm ‹_›⟩
    · rename_i hcls hret
      cases h
      have hcls' : fieldNNN op ≠ 0x0E0#12 := fun hn => hcls (by rw [← hop, hn]; rfl)
      have hret' : fieldNNN op ≠ 0x0EE#12 := fun hn => hret (by rw [← hop, hn]; rfl)
      exact ⟨by simp [Instr.wellFormed, hcls', hret'], hop⟩

theorem isWordOf_of_decodeN0 {j : Instr} (hj : fieldN op = 0x0#4 → IsWordOf op j) (h : decodeN0 op j = .instr i) :
    IsWordOf op i := by
  unfold decodeN0 at h
  split at h <;> cases h
  exact hj ‹_›

theorem isWordOf_of_decode8 (hf : family op = 0x8) (h : decode8 op = .instr i) : IsWordOf op i := by
  unfold decode8 at h
  split at h <;> cases h <;> exact ⟨rfl, wordXYS_of_family hf ‹_›⟩

theorem isWordOf_of_decodeE (hf : family op = 0xE) (h : decodeE op = .instr i) : IsWordOf op i := by
  unfold decodeE at h
  split at h <;> cases h <;> exact ⟨rfl, wordXSS_of_family hf ‹_›⟩

theorem isWordOf_of_decodeF (hf : family op = 0xF) (h : decodeF op = .instr i) : IsWordOf op i := by
  unfold decodeF at h
  split at h <;> cases h <;> exact ⟨rfl, wordXSS_of_family hf ‹_›⟩

/-- A word that decodes is the word of its instruction: its fields are the operands, and where the decoder tests a
sub-opcode, the one tested is the one encoded (R92, R95). -/
theorem isWordOf_of_decode (h : decode op = .instr i) : IsWordOf op i := by
  unfold decode at h
  split at h
  case h_1 hf => exact isWordOf_of_decode0 hf h
  case h_6 hf | h_10 hf =>
    refine isWordOf_of_decodeN0 (fun hn => ?_) h
    exact ⟨rfl, wordXYS_of_family hf (congrArg BitVec.toNat hn)⟩
  case h_9 hf => exact isWordOf_of_decode8 hf h
  case h_15 hf => exact isWordOf_of_decodeE hf h
  case h_16 hf => exact isWordOf_of_decodeF hf h
  case h_17 => cases h
  case h_2 hf | h_3 hf | h_11 hf | h_12 hf => cases h; exact ⟨rfl, wordNNN_of_family hf⟩
  case h_4 hf | h_5 hf | h_7 hf | h_8 hf | h_13 hf => cases h; exact ⟨rfl, wordXNN_of_family hf⟩
  case h_14 hf => cases h; exact ⟨rfl, wordXYN_of_family hf⟩

end

/-- Settles O2, in each family. -/
theorem encodeInvertsDecode : Obligations.EncodeInvertsDecode := fun _ _ => isWordOf_of_decode

/-! ## Decoding inverts encoding -/

theorem wordNNN_injective (f : BitVec 4) : Function.Injective (wordNNN f) :=
  Function.LeftInverse.injective (g := fieldNNN) (fieldNNN_wordNNN f)

/-- Every word of family 0 but 00E0 and 00EE is SYS (R95). -/
theorem decode_wordNNN_sys {nnn : Addr} (hcls : nnn ≠ 0x0E0#12) (hret : nnn ≠ 0x0EE#12) :
    decode (wordNNN 0x0#4 nnn) = .instr (.sys nnn) := by
  have hcls' : wordNNN 0x0#4 nnn ≠ 0x00E0#16 := (wordNNN_injective 0x0#4).ne hcls
  have hret' : wordNNN 0x0#4 nnn ≠ 0x00EE#16 := (wordNNN_injective 0x0#4).ne hret
  simp [decode, decode0, hcls', hret']

/-- The family of an encoding selects the arm of the decoder, and its sub-opcode the instruction in it (R95). -/
theorem decode_encode {i : Instr} (h : i.wellFormed = true) : decode (encode i) = .instr i := by
  cases i with
  | sys nnn =>
    obtain ⟨hcls, hret⟩ : nnn ≠ 0x0E0#12 ∧ nnn ≠ 0x0EE#12 := by simpa [Instr.wellFormed] using h
    exact decode_wordNNN_sys hcls hret
  | cls | ret => rfl
  | jp | call | ldI | jpV0 | seImm | sneImm | ldImm | addImm | rnd | drw => simp [decode, encode]
  | seReg | sneReg => simp [decode, encode, decodeN0]
  | ldReg | orReg | andReg | xorReg | addReg | subReg | shr | subnReg | shl => simp [decode, encode, decode8]
  | skp | sknp => simp [decode, encode, decodeE]
  | ldVxDt | ldVxK | ldDtVx | ldStVx | addIVx | ldFVx | ldBVx | ldMemVx | ldVxMem => simp [decode, encode, decodeF]

/-- A word is its two bytes, the high half first (R65). -/
theorem opcodeOf_halves (op : Word) : opcodeOf (op.extractLsb' 8 8) (op.extractLsb' 0 8) = op := by
  refine BitVec.eq_of_getLsbD_eq fun i hi => ?_
  simp only [opcodeOf, BitVec.getLsbD_append, BitVec.getLsbD_extractLsb']
  split
  · simp_all
  · simp [show 8 + (i - 8) = i by omega, show i - 8 < 8 by omega]

theorem decodeBytes_encodeBytes_append (i : Instr) (rest : List Byte) :
    decodeBytes (encodeBytes i ++ rest) = decode (encode i) :=
  congrArg decode (opcodeOf_halves (encode i))

/-- Settles O1: the bytes of an encoding are the two halves of its word. -/
theorem decodeInvertsEncode : Obligations.DecodeInvertsEncode := fun i h =>
  ⟨decode_encode h, fun rest => (decodeBytes_encodeBytes_append i rest).trans (decode_encode h)⟩

/-- Settles O3, by evaluating the decoder on each word. -/
theorem writtenOutWordsDecode : Obligations.WrittenOutWordsDecode := by
  unfold Obligations.WrittenOutWordsDecode
  decide

/-! ## The words that are no instruction -/

/-- The decoder has two answers to a word: it is never too short (R90), and a rejection names it (R123). -/
theorem exists_instr_iff (op : Word) : (∃ i, decode op = .instr i) ↔ ¬decode op = .unimplemented op := by
  cases h : decode op with
  | instr i => simp
  | unimplemented w => simp [decode_unimplemented h]
  | truncated => exact absurd h (decode_ne_truncated op)

section
variable (op : Word)

theorem decode0_ne_unimplemented : decode0 op ≠ .unimplemented op := by
  unfold decode0
  split
  · nofun
  · split <;> nofun

theorem decodeN0_unimplemented_iff (i : Instr) : decodeN0 op i = .unimplemented op ↔ op.extractLsb' 0 4 ≠ 0x0#4 := by
  unfold decodeN0 fieldN
  split <;> simp [*]

theorem decode8_unimplemented_iff :
    decode8 op = .unimplemented op ↔
      op.extractLsb' 0 4 ∉ [0x0#4, 0x1#4, 0x2#4, 0x3#4, 0x4#4, 0x5#4, 0x6#4, 0x7#4, 0xE#4] := by
  simp only [decode8, fieldN, List.mem_cons, List.not_mem_nil, ← BitVec.toNat_inj]
  generalize op.extractLsb' 0 4 = n
  split <;> simp_all

theorem decodeE_unimplemented_iff :
    decodeE op = .unimplemented op ↔ op.extractLsb' 0 8 ∉ [0x9E#8, 0xA1#8] := by
  simp only [decodeE, fieldNN, List.mem_cons, List.not_mem_nil, ← BitVec.toNat_inj]
  generalize op.extractLsb' 0 8 = n
  split <;> simp_all

theorem decodeF_unimplemented_iff :
    decodeF op = .unimplemented op ↔
      op.extractLsb' 0 8 ∉ [0x07#8, 0x0A#8, 0x15#8, 0x18#8, 0x1E#8, 0x29#8, 0x33#8, 0x55#8, 0x65#8] := by
  simp only [decodeF, fieldNN, List.mem_cons, List.not_mem_nil, ← BitVec.toNat_inj]
  generalize op.extractLsb' 0 8 = n
  split <;> simp_all

end

/-- Settles O4: only families 5, 8, 9, E and F test a sub-opcode, and each rejects the words whose sub-opcode it does not
list. -/
theorem unimplementedWordsByFamily : Obligations.UnimplementedWordsByFamily := by
  refine fun op => ⟨exists_instr_iff op, ?_⟩
  simp only [extractLsb'_eq_iff_family]
  unfold decode
  split
  case h_1 hf => simp [decode0_ne_unimplemented, hf]
  case h_6 hf | h_10 hf => simp [decodeN0_unimplemented_iff, hf]
  case h_9 hf => simp [decode8_unimplemented_iff, hf]
  case h_15 hf => simp [decodeE_unimplemented_iff, hf]
  case h_16 hf => simp [decodeF_unimplemented_iff, hf]
  -- A family is a nibble, so the decoder's last arm is never taken.
  case h_17 => exact absurd (family_lt op) (by simp only [imp_false] at *; omega)
  case h_2 hf | h_3 hf | h_4 hf | h_5 hf | h_7 hf | h_8 hf | h_11 hf | h_12 hf | h_13 hf | h_14 hf => simp [hf]

/-! ## Ignored fields, and the step at a word that is no instruction -/

/-- Settles O5: the words are encodings, and the handlers do not read the ignored operand. -/
theorem ignoredFieldsHaveNoEffect : Obligations.IgnoredFieldsHaveNoEffect := fun _ x y _ _ _ =>
  ⟨decode_wordNNN_sys, rfl, decode_encode (i := .shr x y) rfl, rfl, decode_encode (i := .shl x y) rfl, rfl⟩

end Sys2Proof

namespace Sys2Proof.Machine

open Safety

section
variable {s t : State} {op : Word}

theorem step_of_unimplemented (hs : Fetches s op) (hop : decode op = .unimplemented op) :
    step s = .next (haltedOn s .unimplementedOpcode (some op)) := by
  obtain ⟨hrun, hpc, hword⟩ := (Fetches_iff s op).mp hs
  simp only [step, runStep, if_pos hrun, if_pos ((State.canFetch_iff s).mpr hpc), hword, hop]
  rfl

/-- A step that halts a running core returns the code it recorded (R129). -/
theorem stepResult_of_halts (hrun : s.run = .running) (hs : step s = .next t) (ht : t.run = .halted) :
    stepResult s = .halted t.fault.code := by
  rw [step] at hs
  simp [stepResult, hrun, hs, answerState, ht]

end

/-- Settles O8: the step enters the fault, so it returns the code of the record. -/
theorem unimplementedWordHalts : Obligations.UnimplementedWordHalts := fun _ _ hs hop =>
  have hstep := step_of_unimplemented hs hop
  ⟨hstep, stepResult_of_halts hs.1 hstep rfl⟩

end Sys2Proof.Machine

/-! The engine: the step in each of its cases, what it returns, each instruction's effect on PC, and the batch. -/

namespace Sys2Proof.Machine

open Safety

/-! ## The step and its return value, case by case -/

section
variable {s t : State} {op : Word} {i : Instr}

theorem step_of_not_running (hrun : s.run ≠ .running) : step s = .next s := if_neg hrun

theorem stepResult_of_not_running (hrun : s.run ≠ .running) : stepResult s = .notRunning := if_neg hrun

theorem step_of_pc_gt (hrun : s.run = .running) (hpc : s.pc.toNat > 0xFFE) :
    step s = .next (haltedOn s .fetchOutOfRange none) := by
  have hfetch : ¬s.canFetch = true := by rw [State.canFetch_iff]; omega
  simp only [step, runStep, if_pos hrun, if_neg hfetch]
  rfl

theorem step_of_instr (hs : Fetches s op) (hop : decode op = .instr i) : step s = exec i s := by
  obtain ⟨hrun, hpc, hword⟩ := (Fetches_iff s op).mp hs
  simp only [step, runStep, if_pos hrun, if_pos ((State.canFetch_iff s).mpr hpc), hword, hop]

/-- A step that leaves a running core running returns whether its instruction draws (R129). -/
theorem stepResult_of_runs (hs : Fetches s op) (hop : decode op = .instr i) (ht : exec i s = .next t)
    (hrun : t.run = .running) : stepResult s = .ok (drawing i) := by
  have hstep : runStep s = .next t := (step_of_instr hs hop).trans ht
  obtain ⟨hs_run, -, hword⟩ := (Fetches_iff s op).mp hs
  simp [stepResult, hs_run, hstep, answerState, hrun, State.drawsNext, hword, hop]

theorem drawing_iff : drawing i = true ↔ i = .cls ∨ ∃ x y n, i = .drw x y n := by
  cases i <;> simp [drawing]

/-- A handler halts the core or leaves the run state (R302). -/
theorem run_of_exec_not_halted (h : exec i s = .next t) (ht : t.run ≠ .halted) : t.run = s.run := by
  cases exec_cases h with
  | fault => exact absurd rfl ht
  | waits => rfl
  | done => exact effect_run_fault.1

theorem exec_exists_next (i : Instr) (s : State) : ∃ t, exec i s = .next t :=
  (exec_ensures_cases i s).imp fun _ h => h.1

/-- The answers of the four cases of R130. -/
theorem step_exists_next (s : State) : ∃ t, step s = .next t := by
  by_cases hrun : s.run = .running
  · by_cases hpc : s.pc.toNat > 0xFFE
    · exact ⟨_, step_of_pc_gt hrun hpc⟩
    · have hs : Fetches s s.fetchWord := ⟨hrun, not_lt.mp hpc, rfl⟩
      by_cases hop : decode s.fetchWord = .unimplemented s.fetchWord
      · exact ⟨_, step_of_unimplemented hs hop⟩
      · obtain ⟨i, hi⟩ := (exists_instr_iff _).mpr hop
        rw [step_of_instr hs hi]
        exact exec_exists_next i s
  · exact ⟨s, step_of_not_running hrun⟩

end

/-- Settles O9, by the first test of the step. -/
theorem stepWhileNotRunningDoesNothing : Obligations.StepWhileNotRunningDoesNothing := fun _ hrun =>
  ⟨step_of_not_running hrun, stepResult_of_not_running hrun⟩

/-- Settles O7: the fetch check comes first, and the step returns the code it recorded. -/
theorem fetchPastMemoryHalts : Obligations.FetchPastMemoryHalts := fun _ hrun hpc =>
  have hstep := step_of_pc_gt hrun hpc
  ⟨hstep, stepResult_of_halts hrun hstep rfl⟩

/-- Settles O6: past the fetch check and the decode, the step is the handler. -/
theorem stepRunsTheDecodedInstruction : Obligations.StepRunsTheDecodedInstruction := fun _ _ _ => step_of_instr

/-- Settles O11, from the cases of the step and of the handlers. -/
theorem everyStepAnswersANextState : Obligations.EveryStepAnswersANextState := ⟨step_exists_next, exec_exists_next⟩

/-- Settles O10: of the four cases of a step, only an instruction leaves a running core that is not halted. -/
theorem stepReturnValue : Obligations.StepReturnValue := by
  intro s t h
  refine ⟨stepResult_of_not_running, fun hrun ht => stepResult_of_halts hrun h ht, fun hrun ht => ?_⟩
  obtain ⟨hstop, -⟩ | ⟨-, -, rfl⟩ | ⟨-, -, -, rfl⟩ | ⟨-, hpc, i, hop, he⟩ := step_cases h
  · exact absurd hrun hstop
  · exact absurd rfl ht
  · exact absurd rfl ht
  · have hs : Fetches s s.fetchWord := ⟨hrun, hpc, rfl⟩
    have htrun : t.run = .running := (run_of_exec_not_halted he ht).trans hrun
    exact ⟨_, i, drawing i, hs, hop, stepResult_of_runs hs hop he htrun, drawing_iff⟩

/-! ## The table of PC -/

section
variable {s : State}

theorem skipWhen_pc_of_iff {c : Bool} {p : Prop} [Decidable p] (h : c = true ↔ p) :
    (s.skipWhen c).pc = if p then s.pc + 4 else s.pc + 2 := by
  rw [State.skipWhen_eq]
  exact if_congr h rfl rfl

theorem keyAt_getD_of_val_eq {b : Byte} {k : Fin 16} (h : k.val = b.toNat) : (s.keyAt b).getD false = s.keys[k] := by
  simp [State.keyAt, ← h]

theorem top_eq_of_val_succ_eq {k : Fin 16} (h : k.val + 1 = s.sp.val) : s.top = s.stack[k] := by
  simp [State.top, ← h]

theorem leastKey_ne_none_iff : s.leastKey ≠ none ↔ ∃ k : Fin 16, s.keys[k] = true := by
  simp [State.leastKey_eq_none]

/-- The target of BNNN is an exact sum (R176, R177). -/
theorem addrOperand_add_zext_toNat (nnn : Addr) (b : Byte) :
    (addrOperand nnn + zext b).toNat = nnn.toNat + b.toNat := by
  have := nnn.isLt
  have := b.isLt
  rw [BitVec.toNat_add, addrOperand_toNat, zext_toNat]
  omega

end

/-- Settles O14: a fault keeps PC, a wait is the row of FX0A with no key pressed, and each effect sets PC as its row
says. -/
theorem programCounterTable : Obligations.ProgramCounterTable := by
  intro i s t h
  cases exec_cases h with
  | fault hc => exact ⟨fun _ => rfl, fun hf => nomatch hc.symm.trans hf⟩
  | waits hi hk =>
    subst hi
    exact ⟨fun _ => rfl, fun _ => (if_neg fun hp => leastKey_ne_none_iff.mpr hp hk).symm⟩
  | done hf hk =>
    refine ⟨fun hc => absurd hf hc, fun _ => ?_⟩
    cases i with
    | seImm | seReg => exact skipWhen_pc_of_iff beq_iff_eq
    | sneImm | sneReg => exact skipWhen_pc_of_iff bne_iff_ne
    | skp x => exact fun k hx => skipWhen_pc_of_iff (by rw [State.reg_eq, keyAt_getD_of_val_eq hx])
    | sknp x =>
      exact fun k hx => skipWhen_pc_of_iff (by rw [State.reg_eq, keyAt_getD_of_val_eq hx, Bool.not_eq_true'])
    | jp nnn | call nnn => exact addrOperand_toNat nnn
    | ret => exact fun k hsp => congrArg (· + 2) (top_eq_of_val_succ_eq hsp)
    | jpV0 nnn => exact addrOperand_add_zext_toNat nnn _
    | ldVxK x => exact (if_pos (leastKey_ne_none_iff.mp (hk x rfl))).symm
    | _ => rfl

/-! ## The batch -/

/-- One round of the loop: it goes on exactly after a step that returned Ok(false) (R140). -/
theorem batchFrom_succ (inputs : Nat → StepInput) (fuel count : Nat) (s : State) :
    batchFrom inputs (fuel + 1) count s =
      if s.run = .running then
        if (s.stepWith (inputs count)).2 = .ok false then
          batchFrom inputs fuel (count + 1) (s.stepWith (inputs count)).1
        else ((s.stepWith (inputs count)).1, count + 1)
      else (s, count) := by
  rw [batchFrom]
  generalize s.stepWith (inputs count) = r
  obtain ⟨t, result⟩ := r
  cases result with
  | ok drew => cases drew <;> rfl
  | halted | notRunning => rfl

/-- The count only numbers the inputs and is added to: a loop that starts one later is one over the later inputs. -/
theorem batchFrom_succ_count (inputs : Nat → StepInput) (fuel count : Nat) (s : State) :
    batchFrom inputs fuel (count + 1) s =
      ((batchFrom (fun k => inputs (k + 1)) fuel count s).1,
        (batchFrom (fun k => inputs (k + 1)) fuel count s).2 + 1) := by
  induction fuel generalizing count s with
  | zero => rfl
  | succ fuel ih =>
    rw [batchFrom_succ, batchFrom_succ, ih]
    split
    · split <;> rfl
    · rfl

/-- Settles O27, from one round of the loop. -/
theorem batchRunsStepByStep : Obligations.BatchRunsStepByStep := fun s inputs =>
  ⟨rfl, fun n => by rw [State.stepBatch, batchFrom_succ, batchFrom_succ_count]; rfl⟩

section
variable {s : State}

theorem awaitingKey_supply (h : awaitingKey s) {inp : StepInput} (hinp : ∀ j : Fin 16, inp.keys[j] = false) :
    awaitingKey (s.supply inp) := by
  obtain ⟨hrun, hfetch, hop, -⟩ := h
  exact ⟨hrun, hfetch, hop, hinp⟩

/-- A step of a waiting core changes nothing, and it did not draw (R131, R266). -/
theorem step_of_awaitingKey (h : awaitingKey s) : step s = .next s ∧ stepResult s = .ok false := by
  obtain ⟨hrun, hfetch, ⟨x, hop⟩, hkeys⟩ := h
  have hs : Fetches s s.fetchWord := ⟨hrun, (State.canFetch_iff s).mp hfetch, rfl⟩
  have hexec : exec (.ldVxK x) s = .next s := by
    simp only [exec, execLdVxK, (State.leastKey_eq_none s).mpr hkeys]
  exact ⟨(step_of_instr hs hop).trans hexec, stepResult_of_runs hs hop hexec hrun⟩

theorem stepWith_of_awaitingKey (h : awaitingKey s) {inp : StepInput} (hinp : ∀ j : Fin 16, inp.keys[j] = false) :
    s.stepWith inp = (s.supply inp, .ok false) := by
  obtain ⟨hstep, hresult⟩ := step_of_awaitingKey (awaitingKey_supply h hinp)
  rw [State.stepWith, hstep, hresult, answerState]

end

/-- Settles O28, by induction on the steps of the batch: each one leaves the core waiting. -/
theorem keyWaitUsesUpTheBatch : Obligations.KeyWaitUsesUpTheBatch := by
  intro s inputs n h hinputs
  induction n generalizing s inputs with
  | zero => exact ⟨rfl, rfl⟩
  | succ n ih =>
    have hround : s.stepBatch (n + 1) inputs =
        (((s.supply (inputs 0)).stepBatch n fun k => inputs (k + 1)).1,
          ((s.supply (inputs 0)).stepBatch n fun k => inputs (k + 1)).2 + 1) := by
      rw [(batchRunsStepByStep s inputs).2 n, if_pos h.1, stepWith_of_awaitingKey h (hinputs 0), if_pos rfl]
    obtain ⟨hcount, hstate⟩ :=
      ih (s.supply (inputs 0)) (fun k => inputs (k + 1)) (awaitingKey_supply h (hinputs 0)) fun k => hinputs (k + 1)
    rw [hround]
    exact ⟨congrArg (· + 1) hcount, hstate⟩

end Sys2Proof.Machine

/-! Control flow: an instruction's answer when its own check fails and when it passes; no-op, jumps, skips, call and
return. -/

namespace Sys2Proof.Safety

open Sys2Proof.Machine

/-! ## The answer of a handler, by its own check -/

section
variable {s : State} {i : Instr}

theorem exec_of_ownFault {c : FaultCode} (hc : ownFault i s = some c) :
    exec i s = .next (haltedOn s c (some (encode i))) := by
  obtain ⟨t, ht⟩ := exec_exists_next i s
  rw [ht]
  cases exec_cases ht with
  | fault hc' => cases hc'.symm.trans hc; rfl
  | waits hi => subst hi; cases hc
  | done hf => cases hf.symm.trans hc

theorem exec_of_ownFault_none (hf : ownFault i s = none) (hk : ∀ x, i = .ldVxK x → s.leastKey ≠ none := by nofun) :
    exec i s = .next (effect i s) := by
  obtain ⟨t, ht⟩ := exec_exists_next i s
  rw [ht]
  cases exec_cases ht with
  | fault hc => cases hc.symm.trans hf
  | waits hi hnone => exact absurd hnone (hk _ hi)
  | done => rfl

end

/-! ## Jump targets and skips -/

/-- Zero-extending NNN puts a zero nibble above it (R93). -/
theorem addrOperand_eq (nnn : Addr) : addrOperand nnn = 0x0#4 ++ nnn :=
  (BitVec.setWidth_eq_append (by decide)).trans rfl

section
variable {s : State}

theorem exec_of_skips {i : Instr} {c : Bool} {p : Prop} [Decidable p] (h : exec i s = .next (s.skipWhen c))
    (hc : c = true ↔ p) : exec i s = .next { s with pc := if p then s.pc + 4 else s.pc + 2 } := by
  rw [h, ← skipWhen_pc_of_iff hc]
  rfl

/-! ## The call stack -/

theorem pop_of_val_succ_eq {k : Fin 16} (h : k.val + 1 = s.sp.val) : s.pop = { s with sp := k.castSucc } := by
  have hsp : s.pop.sp = k.castSucc := Fin.ext (Nat.sub_eq_of_eq_add h.symm)
  exact congrArg (fun sp => { s with sp := sp }) hsp

theorem push_of_val_eq {k : Fin 16} (h : k.val = s.sp.val) (w : Word) :
    s.push w = { s with stack := s.stack.set k w, sp := k.succ } := by
  have hsp : (s.push w).sp = k.succ := Fin.ext (by simp only [State.push_sp, Fin.val_succ]; omega)
  have hstack : (s.push w).stack = s.stack.set k w := by simp [← h, Vector.setIfInBounds, Array.setIfInBounds]
  exact congrArg₂ (fun stack sp => { s with stack := stack, sp := sp }) hstack hsp

theorem exec_call_of_sp_lt (nnn : Addr) (h : s.sp.val < 16) :
    exec (.call nnn) s = .next ((s.push s.pc).jump (addrOperand nnn)) :=
  exec_of_ownFault_none (if_neg h.ne)

theorem exec_ret_of_sp_ne_zero (h : s.sp.val ≠ 0) : exec .ret s = .next (s.pop.jump (s.top + 2)) :=
  exec_of_ownFault_none (if_neg h)

end

/-! ## The obligations -/

/-- Settles O29: SYS has no check, and its effect is the advance. -/
theorem sysIsNoOperation : Obligations.SysIsNoOperation := fun _ _ =>
  ⟨decode_wordNNN_sys, exec_of_ownFault_none rfl⟩

/-- Settles O30: the popped entry is the top of the stack. -/
theorem returnPopsTheStack : Obligations.ReturnPopsTheStack := by
  refine ⟨decode_encode (i := .ret) rfl, fun s => ⟨fun k hk => ?_, fun h => exec_of_ownFault (if_pos h)⟩⟩
  rw [exec_ret_of_sp_ne_zero (by omega), pop_of_val_succ_eq hk, top_eq_of_val_succ_eq hk]
  rfl

/-- Settles O31: the target is NNN, zero-extended. -/
theorem jumpSetsProgramCounter : Obligations.JumpSetsProgramCounter := fun s nnn =>
  ⟨decode_encode (i := .jp nnn) rfl, by rw [← addrOperand_eq]; exact exec_of_ownFault_none rfl⟩

/-- Settles O32: the entry pushed is the call's own PC. -/
theorem callPushesItsOwnAddress : Obligations.CallPushesItsOwnAddress := by
  refine fun s nnn => ⟨decode_encode (i := .call nnn) rfl, fun k hk => ?_, fun h => exec_of_ownFault (if_pos h)⟩
  rw [exec_call_of_sp_lt nnn (by omega), push_of_val_eq hk, addrOperand_eq]
  rfl

/-- Settles O33: the return pops the call's own address, and the push wrote only the entry at the old SP (R159). -/
theorem callThenReturn : Obligations.CallThenReturn := by
  intro s nnn h
  have hne : ((s.push s.pc).jump (addrOperand nnn)).sp.val ≠ 0 := by simp
  have htop : (s.push s.pc).top = s.pc := State.top_push s s.pc h
  have hsp : (s.push s.pc).pop.sp = s.sp := State.pop_push_sp s s.pc h
  refine ⟨_, _, exec_call_of_sp_lt nnn h, exec_ret_of_sp_ne_zero hne, congrArg (· + 2) htop, hsp, ?_,
    fun k hk => push_stack_of_ne hk.ne⟩
  exact congrArg (fun sp => { s with stack := (s.push s.pc).stack, sp := sp, pc := (s.push s.pc).top + 2 }) hsp

/-- Settles O34: each skip tests its own comparison and has no check that could fail. -/
theorem skipsCompareAndAdvance : Obligations.SkipsCompareAndAdvance := by
  intro s x y nn
  exact ⟨decode_encode (i := .seImm x nn) rfl, exec_of_skips (exec_of_ownFault_none rfl) beq_iff_eq,
    decode_encode (i := .sneImm x nn) rfl, exec_of_skips (exec_of_ownFault_none rfl) bne_iff_ne,
    decode_encode (i := .seReg x y) rfl, exec_of_skips (exec_of_ownFault_none rfl) beq_iff_eq,
    decode_encode (i := .sneReg x y) rfl, exec_of_skips (exec_of_ownFault_none rfl) bne_iff_ne⟩

/-- Settles O35: the sum of a 12-bit and an 8-bit number does not wrap in 16 bits (R177). -/
theorem jumpWithOffsetIsExact : Obligations.JumpWithOffsetIsExact := fun _ nnn =>
  ⟨decode_encode (i := .jpV0 nnn) rfl, _, addrOperand_add_zext_toNat nnn _, exec_of_ownFault_none rfl⟩

end Sys2Proof.Safety

/-! Loads, arithmetic, logic, shifts and random: each result and flag as an exact integer, and the state an instruction
leaves that writes VX, alone or after the flag. -/

namespace Sys2Proof.Machine

/-! ## Results and flags as exact integers (R13) -/

section
variable (a b : Byte)

theorem flagByte_toNat (f : Bool) : (flagByte f).toNat = if f = true then 1 else 0 := by cases f <;> rfl

/-- The carry is the ninth bit of the sum (R192). -/
theorem flagByte_carryOut_toNat : (flagByte (carryOut a b)).toNat = (a.toNat + b.toNat) / 256 := by
  have := a.isLt
  have := b.isLt
  simp only [flagByte_toNat, carryOut_iff]
  split <;> omega

/-- A difference needs no borrow exactly when a loan of 256 is still there after it (R195, R201). -/
theorem flagByte_notBorrow_toNat : (flagByte (notBorrow a b)).toNat = (a.toNat + 256 - b.toNat) / 256 := by
  have := a.isLt
  have := b.isLt
  simp only [flagByte_toNat, notBorrow_iff]
  split <;> omega

theorem flagByte_getLsbD_toNat (k : Nat) : (flagByte (a.getLsbD k)).toNat = a.toNat / 2 ^ k % 2 := by
  simp only [flagByte_toNat, BitVec.getLsbD, Nat.testBit_eq_decide_div_mod_eq, decide_eq_true_eq]
  split <;> omega

theorem flagByte_lowBit_toNat : (flagByte (lowBit a)).toNat = a.toNat % 2 := by
  rw [lowBit, flagByte_getLsbD_toNat, pow_zero, Nat.div_one]

theorem flagByte_highBit_toNat : (flagByte (highBit a)).toNat = a.toNat / 128 % 2 := flagByte_getLsbD_toNat a 7

/-- A byte has no bit above bit 7. -/
theorem toNat_div_128_mod_two : a.toNat / 128 % 2 = a.toNat / 128 := by
  have := a.isLt
  omega

/-- The difference with 256 lent to it, which truncates nowhere (R195, R196). -/
theorem diffByte_toNat_eq : (diffByte a b).toNat = (a.toNat + 256 - b.toNat) % 256 := by
  have hb : b.toNat ≤ 256 := b.isLt.le
  rw [diffByte_toNat, ← Nat.add_sub_assoc hb]

theorem shiftRight_one_toNat : (a >>> 1).toNat = a.toNat / 2 := by
  rw [BitVec.toNat_ushiftRight, Nat.shiftRight_one]

theorem shiftLeft_one_toNat : (a <<< 1).toNat = a.toNat * 2 % 256 := by
  rw [BitVec.toNat_shiftLeft, Nat.shiftLeft_eq]

/-! ## The same bytes, as the obligations spell them -/

variable {a b}

theorem eq_ofNat_of_toNat_eq {n : Nat} (h : a.toNat = n) : a = BitVec.ofNat 8 n := by
  rw [← h, BitVec.ofNat_toNat, BitVec.setWidth_eq]

theorem flagByte_carryOut : flagByte (carryOut a b) = if a.toNat + b.toNat > 255 then 1 else 0 :=
  if_congr (carryOut_iff a b) rfl rfl

theorem flagByte_notBorrow : flagByte (notBorrow a b) = if a.toNat < b.toNat then 0 else 1 := by
  rw [← ite_not]
  exact if_congr ((notBorrow_iff a b).trans not_lt.symm) rfl rfl

theorem sumByte_eq_ofNat_mod : sumByte a b = BitVec.ofNat 8 ((a.toNat + b.toNat) % 256) :=
  eq_ofNat_of_toNat_eq (sumByte_toNat a b)

theorem diffByte_eq_ofInt_mod : diffByte a b = BitVec.ofInt 8 (((a.toNat : Int) - (b.toNat : Int)) % 256) := by
  apply BitVec.eq_of_toNat_eq
  rw [diffByte, BitVec.toNat_ofInt, BitVec.toNat_ofInt]
  omega

/-! ## The mask and the draws of CXNN -/

theorem full_mask_and : 0xFF &&& a = a := BitVec.allOnes_and

/-- Every byte but 0 is drawn by some draw (R210, R212). -/
theorem exists_drawByte_eq (ha : a ≠ 0) : ∃ d, drawByte d = a := by
  have hne : a.toNat ≠ 0 := BitVec.toNat_ne_iff_ne.mpr ha
  have hlt := a.isLt
  refine ⟨⟨a.toNat - 1, by omega⟩, BitVec.eq_of_toNat_eq ?_⟩
  rw [drawByte_toNat]
  exact Nat.succ_pred hne

theorem drawByte_ne_zero (d : Draw) : drawByte d ≠ 0 := by
  rw [← BitVec.toNat_ne_iff_ne]
  exact Nat.ne_of_gt (drawByte_range d).1

theorem State.nextDraw_of_draws_eq_cons {s : State} {d : Draw} {ds : List Draw} (h : s.draws = d :: ds) :
    s.nextDraw = d := by
  rw [State.nextDraw, h, List.headD_cons]

end

end Sys2Proof.Machine

namespace Sys2Proof.Safety

open Sys2Proof.Machine

/-! ## The instructions that write VX, alone or after the flag -/

section
variable {s : State} {i : Instr} {x : Reg} {f : Bool} {b b' flag : Byte}

theorem exec_of_setReg (h : exec i s = .next (s.setReg x b).advance) (hb : b = b') :
    exec i s = .next { s with v := s.v.set x b', pc := s.pc + 2 } := hb ▸ h

theorem exec_of_setFlagged (h : exec i s = .next (s.setFlagged f x b).advance) (hf : flagByte f = flag) (hb : b = b') :
    exec i s = .next { s with v := (s.v.set 15 flag).set x b', pc := s.pc + 2 } := hf ▸ hb ▸ h

/-- The order of the two writes, read back: VX holds the result, and VF the flag unless X = F (R179). -/
theorem exec_setFlagged_registers {result flag : Nat} (h : exec i s = .next (s.setFlagged f x b).advance)
    (hb : b.toNat = result) (hf : (flagByte f).toNat = flag) :
    ∃ t : State, exec i s = .next t ∧ t.v[x].toNat = result ∧ (x ≠ 15 → t.v[15].toNat = flag) ∧
      ∀ r : Reg, r ≠ x → r ≠ 15 → t.v[r] = s.v[r] := by
  have hreg (y : Reg) := State.reg_setFlagged s f x y b
  refine ⟨_, h, ?_, fun hx => ?_, fun r hrx hr => ?_⟩
  · rw [← hb]
    exact congrArg BitVec.toNat ((hreg x).trans (if_pos rfl))
  · rw [← hf]
    exact congrArg BitVec.toNat ((hreg 15).trans ((if_neg hx.symm).trans (if_pos rfl)))
  · exact setFlagged_getElem_of_ne (not_or.mpr ⟨hrx, hr⟩)

/-! ## CXNN -/

theorem exec_rnd (x : Reg) (nn : Byte) (s : State) :
    exec (.rnd x nn) s = .next (s.useDraw.setReg x (nn &&& drawByte s.nextDraw)).advance := exec_of_ownFault_none rfl

theorem getElem_of_exec_rnd {t : State} {nn : Byte} (h : exec (.rnd x nn) s = .next t) :
    t.v[x] = nn &&& drawByte s.nextDraw := by
  cases (exec_rnd x nn s).symm.trans h
  exact (State.reg_setReg s.useDraw x x _).trans (if_pos rfl)

theorem draws_of_exec_rnd {t : State} {nn : Byte} (h : exec (.rnd x nn) s = .next t) : t.draws = s.draws.tail := by
  cases (exec_rnd x nn s).symm.trans h
  rfl

/-- CXFF takes the next queued draw as it is (R210). -/
theorem getElem_of_exec_rnd_full_mask {t : State} {d : Draw} {ds : List Draw} (hd : s.draws = d :: ds)
    (h : exec (.rnd x 0xFF) s = .next t) : t.v[x] = drawByte d := by
  rw [getElem_of_exec_rnd h, full_mask_and, State.nextDraw_of_draws_eq_cons hd]

end

/-! ## The obligations -/

/-- Settles O41: each form writes its flag and then its result, each computed from the registers before it. -/
theorem flagIsWrittenBeforeTheResult : Obligations.FlagIsWrittenBeforeTheResult := by
  rintro s x y i result flag
    (⟨rfl, rfl, rfl⟩ | ⟨rfl, rfl, rfl⟩ | ⟨rfl, rfl, rfl⟩ | ⟨rfl, rfl, rfl⟩ | ⟨rfl, rfl, rfl⟩)
  · exact exec_setFlagged_registers (exec_of_ownFault_none rfl) (sumByte_toNat ..) (flagByte_carryOut_toNat ..)
  · exact exec_setFlagged_registers (exec_of_ownFault_none rfl) (diffByte_toNat_eq ..) (flagByte_notBorrow_toNat ..)
  · exact exec_setFlagged_registers (exec_of_ownFault_none rfl) (diffByte_toNat_eq ..) (flagByte_notBorrow_toNat ..)
  · exact exec_setFlagged_registers (exec_of_ownFault_none rfl) (shiftRight_one_toNat _) (flagByte_lowBit_toNat _)
  · exact exec_setFlagged_registers (exec_of_ownFault_none rfl) (shiftLeft_one_toNat _)
      ((flagByte_highBit_toNat _).trans (toNat_div_128_mod_two _))

/-- Settles O43: VX is NN AND a draw, and no draw is 0. -/
theorem randomResultIsASubset : Obligations.RandomResultIsASubset := by
  intro s t x nn h
  rw [getElem_of_exec_rnd h]
  refine ⟨fun k hk => ?_, fun hnn => ?_, fun hnn => ?_⟩
  · rw [BitVec.getLsbD_and, Bool.and_eq_true] at hk
    exact hk.1
  · rw [hnn]
    exact BitVec.zero_and
  · rw [hnn, full_mask_and]
    exact drawByte_ne_zero s.nextDraw

/-- Settles O36: one register write each, and 7XNN's sum is the byte modulo 256. -/
theorem loadsAndAddImmediate : Obligations.LoadsAndAddImmediate := fun _ x y nn =>
  ⟨decode_encode (i := .ldImm x nn) rfl, exec_of_setReg (exec_of_ownFault_none rfl) rfl,
    decode_encode (i := .ldReg x y) rfl, exec_of_setReg (exec_of_ownFault_none rfl) rfl,
    decode_encode (i := .addImm x nn) rfl, exec_of_setReg (exec_of_ownFault_none rfl) sumByte_eq_ofNat_mod⟩

/-- Settles O37: one register write each, and no write of VF. -/
theorem logicWritesNoFlag : Obligations.LogicWritesNoFlag := fun _ x y =>
  ⟨decode_encode (i := .orReg x y) rfl, exec_of_setReg (exec_of_ownFault_none rfl) rfl,
    decode_encode (i := .andReg x y) rfl, exec_of_setReg (exec_of_ownFault_none rfl) rfl,
    decode_encode (i := .xorReg x y) rfl, exec_of_setReg (exec_of_ownFault_none rfl) rfl⟩

/-- Settles O38: the flag is the carry of the exact sum. -/
theorem addSetsCarry : Obligations.AddSetsCarry := fun _ x y =>
  ⟨decode_encode (i := .addReg x y) rfl,
    exec_of_setFlagged (exec_of_ownFault_none rfl) flagByte_carryOut sumByte_eq_ofNat_mod⟩

/-- Settles O39: 8XY7 is 8XY5 with the operands exchanged. -/
theorem subtractionsSetNotBorrow : Obligations.SubtractionsSetNotBorrow := fun _ x y =>
  ⟨decode_encode (i := .subReg x y) rfl,
    exec_of_setFlagged (exec_of_ownFault_none rfl) flagByte_notBorrow diffByte_eq_ofInt_mod,
    decode_encode (i := .subnReg x y) rfl,
    exec_of_setFlagged (exec_of_ownFault_none rfl) flagByte_notBorrow diffByte_eq_ofInt_mod⟩

/-- Settles O40: the bit shifted out is bit 0 or bit 7. -/
theorem shiftsMoveABitToVF : Obligations.ShiftsMoveABitToVF := fun _ x y =>
  ⟨decode_encode (i := .shr x y) rfl,
    exec_of_setFlagged (exec_of_ownFault_none rfl) (eq_ofNat_of_toNat_eq (flagByte_lowBit_toNat _))
      (eq_ofNat_of_toNat_eq (shiftRight_one_toNat _)),
    decode_encode (i := .shl x y) rfl,
    exec_of_setFlagged (exec_of_ownFault_none rfl) (eq_ofNat_of_toNat_eq (flagByte_highBit_toNat _))
      (eq_ofNat_of_toNat_eq (shiftLeft_one_toNat _))⟩

/-- Settles O42: r is the byte of the draw that CXNN uses up. -/
theorem randomByteIsMasked : Obligations.RandomByteIsMasked := by
  intro s x nn
  refine ⟨decode_encode (i := .rnd x nn) rfl, s.nextDraw.val + 1, Nat.succ_pos _, s.nextDraw.isLt,
    fun d ds hdraws => ?_, exec_rnd x nn s⟩
  rw [State.nextDraw_of_draws_eq_cons hdraws]

/-- Settles O44: the environment queues the draws of a and b; the second CXNN leaves the first one's register. -/
theorem anyTwoDrawsAreAllowed : Obligations.AnyTwoDrawsAreAllowed := by
  intro s x y a b ha hb hxy
  obtain ⟨d, hd⟩ := exists_drawByte_eq ha
  obtain ⟨e, he⟩ := exists_drawByte_eq hb
  obtain ⟨t, ht⟩ := exec_exists_next (.rnd x 0xFF) { s with draws := [d, e] }
  obtain ⟨u, hu⟩ := exec_exists_next (.rnd y 0xFF) t
  refine ⟨[d, e], t, u, ht, hu, ?_, ?_⟩
  · rw [registerFrame _ _ _ x hu hxy, getElem_of_exec_rnd_full_mask rfl ht, hd]
  · rw [getElem_of_exec_rnd_full_mask (draws_of_exec_rnd ht) hu, he]

end Sys2Proof.Safety

/-! Index register and memory: the writes of I, and what the block transfers FX33, FX55 and FX65 leave when the range at I
fits in memory. -/

namespace Sys2Proof.Machine

/-! ## The index register and the stored digits -/

/-- FX1E adds the exact integers modulo 2^16 (R222). -/
theorem add_zext_eq_ofNat_mod (w : Word) (b : Byte) :
    w + zext b = BitVec.ofNat 16 ((w.toNat + b.toNat) % 65536) := by
  apply BitVec.eq_of_toNat_eq
  rw [BitVec.toNat_add, Safety.zext_toNat, BitVec.toNat_ofNat, Nat.mod_mod]

/-- A read after the three digits of a byte are stored from `a` on (R226). -/
theorem Memory.read_writeBytes_bcdDigits (m : Memory) (a : Nat) (b : Byte) (a' : Nat) :
    Memory.read (Memory.writeBytes m a (bcdDigits b)) a' =
      if a' = a then BitVec.ofNat 8 (b.toNat / 100)
      else if a' = a + 1 then BitVec.ofNat 8 (b.toNat / 10 % 10)
      else if a' = a + 2 then BitVec.ofNat 8 (b.toNat % 10)
      else Memory.read m a' := by
  rw [Memory.read_writeBytes, bcdDigits_length]
  by_cases hin : a ≤ a' ∧ a' < a + 3
  · obtain rfl | rfl | rfl : a' = a ∨ a' = a + 1 ∨ a' = a + 2 := by omega
    all_goals simp [bcdDigits]
  · rw [if_neg hin, if_neg (by omega), if_neg (by omega), if_neg (by omega)]

end Sys2Proof.Machine

namespace Sys2Proof.Safety

open Sys2Proof.Machine

section
variable {s : State} {x : Reg}

/-! ## The effects of the block transfers -/

/-- FX55 stores nothing outside I to I + X (R229). -/
theorem effect_ldMemVx_read_of_outside {a : Nat} (h : a < s.i.toNat ∨ a > s.i.toNat + x.val) :
    Memory.read (effect (.ldMemVx x) s).mem a = Memory.read s.mem a :=
  effect_read_of_not_stored (by simp only [storedBytes]; omega)

/-- FX65 loads the k-th register up to VX from the k-th address from I and leaves the others (R232, R233). -/
theorem effect_ldVxMem_getElem (k : Reg) :
    (effect (.ldVxMem x) s).v[k] = if k ≤ x then Memory.read s.mem (s.i.toNat + k.val) else s.v[k] :=
  (loadRegs_getElem ..).trans (if_congr Nat.lt_succ_iff rfl rfl)

end

/-! ## The obligations -/

/-- Settles O46: the check covers the three bytes, and only they are stored. -/
theorem storeDecimalDigits : Obligations.StoreDecimalDigits := fun s x =>
  ⟨decode_encode (i := .ldBVx x) rfl,
    fun h => ⟨(effect (.ldBVx x) s).mem, exec_of_ownFault_none (if_neg h.not_gt),
      Memory.read_writeBytes_bcdDigits s.mem s.i.toNat s.v[x]⟩,
    fun h => exec_of_ownFault (if_pos h)⟩

/-- Settles O47: the check covers the bytes of V0 to VX, and only they are stored. -/
theorem storeRegisters : Obligations.StoreRegisters := fun s x =>
  ⟨decode_encode (i := .ldMemVx x) rfl,
    fun h => ⟨(effect (.ldMemVx x) s).mem, exec_of_ownFault_none (if_neg h.not_gt),
      fun _ => effect_ldMemVx_read, fun _ => effect_ldMemVx_read_of_outside⟩,
    fun h => exec_of_ownFault (if_pos h)⟩

/-- Settles O48: the check covers the bytes of V0 to VX, and only those registers are loaded. -/
theorem loadRegisters : Obligations.LoadRegisters := fun s x =>
  ⟨decode_encode (i := .ldVxMem x) rfl,
    fun h => ⟨(effect (.ldVxMem x) s).v, exec_of_ownFault_none (if_neg h.not_gt), effect_ldVxMem_getElem⟩,
    fun h => exec_of_ownFault (if_pos h)⟩

/-- Settles O45: no check could fail, and each effect writes I and PC alone. -/
theorem indexRegisterWrites : Obligations.IndexRegisterWrites := by
  intro s x nnn
  refine ⟨decode_encode (i := .ldI nnn) rfl, ?_, decode_encode (i := .addIVx x) rfl, ?_,
    decode_encode (i := .ldFVx x) rfl, exec_of_ownFault_none rfl⟩
  · rw [← addrOperand_eq]
    exact exec_of_ownFault_none rfl
  · rw [← add_zext_eq_ofNat_mod]
    exact exec_of_ownFault_none rfl

end Sys2Proof.Safety

/-! Display: the clear, and the sprite draw as the pixels it inverts and the collision it reports. -/

namespace Sys2Proof.Safety

open Sys2Proof.Machine

section
variable {s : State} {x y : Reg} {n : Nibble}

/-! ## The sprite draw -/

/-- The pixels under the set bits of the sprite that DXYN draws in the state `s` (R243, R244). -/
def spriteBits (s : State) (x y : Reg) (n : Nibble) : Nat → Nat → Bool :=
  underSetBit s.mem s.i.toNat s.v[x].toNat s.v[y].toNat n.toNat

/-- The framebuffer and the collision that DXYN leaves in the state `s`; `effect_drw` ties it to the instruction. -/
def spriteDraw (s : State) (x y : Reg) (n : Nibble) : Framebuffer × Bool :=
  drawSprite s.mem s.i.toNat s.v[x].toNat s.v[y].toNat n.toNat (s.fb, false)

theorem effect_drw : effect (.drw x y n) s = { s with
    fb := (spriteDraw s x y n).1, v := s.v.set 15 (flagByte (spriteDraw s x y n).2), dirty := true, pc := s.pc + 2 } :=
  rfl

/-- A sprite that lies in memory is drawn (R249). -/
theorem exec_drw (h : n = 0 ∨ s.i.toNat + n.toNat - 1 ≤ 0xFFF) :
    exec (.drw x y n) s = .next (effect (.drw x y n) s) :=
  exec_of_ownFault_none (if_neg fun ⟨hn, hgt⟩ => h.elim hn hgt.not_ge)

/-- The draw inverts the grid pixels under the sprite's set bits and no other (R245, R246). -/
theorem spriteDraw_pixel {px py : Nat} (hpx : px < 64) (hpy : py < 32) :
    pixel (spriteDraw s x y n).1 px py = (pixel s.fb px py ^^ spriteBits s x y n px py) :=
  (drawSprite_spec ..).1 px py hpx hpy

/-- The draw collides when a grid pixel under a set bit was set (R245, R246). -/
theorem spriteDraw_collides_iff : (spriteDraw s x y n).2 = true ↔
    ∃ px py, px < 64 ∧ py < 32 ∧ pixel s.fb px py = true ∧ spriteBits s x y n px py = true := by
  have hcollides : (spriteDraw s x y n).2 = true ↔ false = true ∨
      ∃ px py, px < 64 ∧ py < 32 ∧ spriteBits s x y n px py = true ∧ pixel s.fb px py = true := (drawSprite_spec ..).2
  simpa only [Bool.false_eq_true, false_or, and_comm (a := spriteBits _ _ _ _ _ _ = true)] using hcollides

theorem flagByte_eq_one_iff (f : Bool) : flagByte f = 1 ↔ f = true := by cases f <;> decide

theorem effect_drw_vf_eq_one_iff : (effect (.drw x y n) s).v[15] = 1 ↔ (spriteDraw s x y n).2 = true := by
  rw [effect_drw, Vector.getElem_set_self, flagByte_eq_one_iff]

theorem effect_drw_getElem_of_ne {r : Reg} (hr : r ≠ 15) : (effect (.drw x y n) s).v[r] = s.v[r] :=
  effect_getElem_of_not_writesReg hr

/-- A draw keeps memory, I and the registers of its coordinates, so a second one has the same set bits. -/
theorem spriteBits_effect_drw (hx : x ≠ 15) (hy : y ≠ 15) :
    spriteBits (effect (.drw x y n) s) x y n = spriteBits s x y n := by
  rw [spriteBits, effect_drw_getElem_of_ne hx, effect_drw_getElem_of_ne hy]
  rfl

end

/-! ## The obligations -/

/-- Settles O51: the pixels and the collision of the draw, and its one check. -/
theorem drawInvertsTheSpritePixels : Obligations.DrawInvertsTheSpritePixels := by
  refine fun s x y n => ⟨decode_encode (i := .drw x y n) rfl, fun h => ?_, fun h => exec_of_ownFault (if_pos h)⟩
  refine ⟨(spriteDraw s x y n).1, flagByte (spriteDraw s x y n).2, exec_drw h, fun _ _ => spriteDraw_pixel, ?_⟩
  cases hc : (spriteDraw s x y n).2 with
  | true => exact .inl ⟨rfl, spriteDraw_collides_iff.mp hc⟩
  | false =>
    refine .inr ⟨rfl, fun px py hpx hpy hset => Bool.eq_false_iff.mpr fun hbit => ?_⟩
    exact Bool.eq_false_iff.mp hc (spriteDraw_collides_iff.mpr ⟨px, py, hpx, hpy, hset, hbit⟩)

/-- Settles O52: the second draw has the first one's set bits, so it inverts the same pixels back, and it finds one of them
set exactly where the first draw found it unset (R251). -/
theorem drawingTwiceRestores : Obligations.DrawingTwiceRestores := by
  intro s x y n hx hy h
  have hbits := spriteBits_effect_drw (s := s) (n := n) hx hy
  have hfirst {px py : Nat} (hpx : px < 64) (hpy : py < 32) :
      pixel (effect (.drw x y n) s).fb px py = (pixel s.fb px py ^^ spriteBits s x y n px py) := spriteDraw_pixel hpx hpy
  refine ⟨_, _, exec_drw h, exec_drw (s := effect (.drw x y n) s) h, fun px py hpx hpy => ?_, ?_⟩
  · calc pixel (spriteDraw (effect (.drw x y n) s) x y n).1 px py
      _ = ((pixel s.fb px py ^^ spriteBits s x y n px py) ^^ spriteBits s x y n px py) := by
        rw [spriteDraw_pixel hpx hpy, hbits, hfirst hpx hpy]
      _ = pixel s.fb px py := by rw [Bool.xor_assoc, Bool.xor_self, Bool.xor_false]
  · rw [effect_drw_vf_eq_one_iff, spriteDraw_collides_iff, hbits]
    refine exists₂_congr fun px py => and_congr_right fun hpx => and_congr_right fun hpy => and_congr_left
      fun (hbit : spriteBits s x y n px py = true) => ?_
    rw [hfirst hpx hpy, hbit, Bool.xor_true, Bool.not_eq_true']

/-- Settles O50: CLS has no check, and its effect blanks the screen. -/
theorem clearUnsetsEveryPixel : Obligations.ClearUnsetsEveryPixel :=
  ⟨decode_encode (i := .cls) rfl, fun _ =>
    ⟨blankScreen, exec_of_ownFault_none rfl, fun px py _ _ => pixel_blankScreen px py⟩⟩

end Sys2Proof.Safety

/-! Keys and timers: the key skips, the key wait, and the transfers between a register and a timer. -/

namespace Sys2Proof.Safety

open Sys2Proof.Machine

section
variable {s : State} {x : Reg}

/-! ## The keys -/

/-- A key index has a slot, so it is not above 0x0F (R261). -/
theorem not_gt_of_val_eq {b : Byte} {k : Fin 16} (hk : k.val = b.toNat) : ¬ b.toNat > 0x0F := by omega

/-- A key pressed while every lower one is released is the least pressed key (R266). -/
theorem leastKey_of_least {k : Fin 16} (hk : s.keys[k] = true) (hlt : ∀ j : Fin 16, j < k → s.keys[j] = false) :
    s.leastKey = some k.val :=
  (State.leastKey_eq_some s k.val).mpr ⟨k.isLt, hk, hlt⟩

theorem exec_ldVxK_of_leastKey_eq_none (hk : s.leastKey = none) : exec (.ldVxK x) s = .next s := by
  simp only [exec, execLdVxK, hk]

theorem exec_ldVxK_of_leastKey_eq_some {k : Nat} (hk : s.leastKey = some k) :
    exec (.ldVxK x) s = .next (s.setReg x (BitVec.ofNat 8 k)).advance := by
  simp only [exec, execLdVxK, hk]

end

/-! ## The obligations -/

/-- Settles O53: an index from 0 to 15 passes the check and reads its own key; a larger one fails the check. -/
theorem keySkips : Obligations.KeySkips := by
  intro s x
  refine ⟨decode_encode (i := .skp x) rfl, decode_encode (i := .sknp x) rfl, fun k hk => ?_,
    fun h => ⟨exec_of_ownFault (if_pos h), exec_of_ownFault (if_pos h)⟩⟩
  have hkey : (s.keyAt (s.reg x)).getD false = s.keys[k] := keyAt_getD_of_val_eq hk
  have hcheck : ¬ s.v[x].toNat > 0x0F := not_gt_of_val_eq hk
  exact ⟨exec_of_skips (exec_of_ownFault_none (if_neg hcheck)) (by rw [hkey]),
    exec_of_skips (exec_of_ownFault_none (if_neg hcheck)) (by rw [hkey, Bool.not_eq_true'])⟩

/-- Settles O54: with no least pressed key the wait changes nothing, and otherwise it writes that key's index to VX. -/
theorem keyWaitPolls : Obligations.KeyWaitPolls := fun s x =>
  ⟨decode_encode (i := .ldVxK x) rfl,
    fun hnone => exec_ldVxK_of_leastKey_eq_none ((State.leastKey_eq_none s).mpr hnone),
    fun _ hk hlt => exec_of_setReg (exec_ldVxK_of_leastKey_eq_some (leastKey_of_least hk hlt)) rfl⟩

/-- Settles O55: no check could fail, and each effect writes its one destination and PC. -/
theorem timerTransfers : Obligations.TimerTransfers := fun _ x =>
  ⟨decode_encode (i := .ldVxDt x) rfl, exec_of_setReg (exec_of_ownFault_none rfl) rfl,
    decode_encode (i := .ldDtVx x) rfl, exec_of_ownFault_none rfl,
    decode_encode (i := .ldStVx x) rfl, exec_of_ownFault_none rfl⟩

end Sys2Proof.Safety

/-! Exceptions and the host's operations: what a faulting step records and in which order its checks come, the halted core
until its next load, the timers, and the dirty flag. -/

namespace Sys2Proof.Machine

open Safety

/-! ## The faults of a step (R302, R304) -/

section
variable {s t : State} {i : Instr} {c : FaultCode}

/-- An instruction's own check raises neither NONE nor the fault of the fetch (R300, R301). -/
theorem ownFault_ne_none_and_ne_fetch (hc : ownFault i s = some c) : c ≠ .none ∧ c ≠ .fetchOutOfRange := by
  cases i with
  | ret | call | drw | ldBVx | ldMemVx | ldVxMem | skp | sknp =>
    obtain ⟨-, hcode⟩ := Option.ite_none_right_eq_some.mp hc
    cases hcode
    exact ⟨nofun, nofun⟩
  | _ => exact nomatch hc

theorem run_of_exec_of_ownFault_none (h : exec i s = .next t) (hf : ownFault i s = none) : t.run = s.run := by
  cases exec_cases h with
  | fault hc => exact nomatch hc.symm.trans hf
  | waits => rfl
  | done => exact effect_run_fault.1

/-- A running core is halted by a handler through the instruction's own fault alone (R302). -/
theorem exists_ownFault_of_exec_halts (h : exec i s = .next t) (hrun : s.run = .running) (ht : t.run = .halted) :
    ∃ c, ownFault i s = some c ∧ t = haltedOn s c (some (encode i)) := by
  cases hf : ownFault i s with
  | none => exact nomatch ht.symm.trans ((run_of_exec_of_ownFault_none h hf).trans hrun)
  | some c =>
    cases h.symm.trans (exec_of_ownFault hf)
    exact ⟨c, rfl, rfl⟩

theorem run_and_code_of_step_halts {op : Option Word} (h : step s = .next t) (hs : step s = .next (haltedOn s c op)) :
    t.run = .halted ∧ t.fault.code = c := by
  cases h.symm.trans hs
  exact ⟨rfl, rfl⟩

end

/-- Settles O12, in the three cases of a step that can halt a running core; a handler records the encoding of the decoded
instruction, which is the fetched word. -/
theorem faultsArePrecise : Obligations.FaultsArePrecise := by
  intro s t h hrun ht
  obtain ⟨hstop, -⟩ | ⟨-, hpc, rfl⟩ | ⟨-, hpc, -, rfl⟩ | ⟨-, hpc, i, hop, he⟩ := step_cases h
  · exact absurd hrun hstop
  · exact ⟨.fetchOutOfRange, none, nofun, rfl, .inl ⟨rfl, rfl, not_le.mp hpc⟩⟩
  · exact ⟨.unimplementedOpcode, _, nofun, rfl, .inr ⟨nofun, _, rfl, hrun, hpc, rfl⟩⟩
  · obtain ⟨c, hc, rfl⟩ := exists_ownFault_of_exec_halts he hrun ht
    obtain ⟨hnone, hfetch⟩ := ownFault_ne_none_and_ne_fetch hc
    have hword : encode i = s.fetchWord := (isWordOf_of_decode hop).2
    exact ⟨c, _, hnone, rfl, .inr ⟨hfetch, _, rfl, hrun, hpc, hword.symm⟩⟩

/-- Settles O13: the step in each of its cases, and past the decode the handler by its own check. -/
theorem faultPriority : Obligations.FaultPriority := by
  intro s t h hrun
  refine ⟨fun hpc => run_and_code_of_step_halts h (step_of_pc_gt hrun hpc), fun op hs =>
    ⟨fun hop => run_and_code_of_step_halts h (step_of_unimplemented hs hop), fun i hop => ?_⟩⟩
  have hexec : step s = exec i s := step_of_instr hs hop
  exact ⟨fun c hc => run_and_code_of_step_halts h (hexec.trans (exec_of_ownFault hc)),
    fun hf => (run_of_exec_of_ownFault_none (hexec.symm.trans h) hf).trans hrun⟩

/-! ## A core that is not running (R128, R303) -/

section
variable {s : State}

theorem tickTimers_of_not_running (hrun : s.run ≠ .running) : s.tickTimers = (s, false) := if_neg hrun

theorem stepWith_of_not_running (hrun : s.run ≠ .running) (inp : StepInput) :
    s.stepWith inp = (s.supply inp, .notRunning) := by
  have hin : (s.supply inp).run ≠ .running := hrun
  rw [State.stepWith, step_of_not_running hin, stepResult_of_not_running hin, answerState]

theorem stepBatch_of_not_running (hrun : s.run ≠ .running) (maxSteps : Nat) (inputs : Nat → StepInput) :
    s.stepBatch maxSteps inputs = (s, 0) := by
  cases maxSteps with
  | zero => rfl
  | succ fuel => exact (batchFrom_succ inputs fuel 0 s).trans (if_neg hrun)

/-- An operation on a core that is not running keeps the run state and the fault record, unless it is a load that
succeeds. -/
theorem apply_run_and_fault_of_not_running (hrun : s.run ≠ .running) (font : Font) {op : HostOp}
    (hload : ∀ bytes, op = .loadProgram bytes → bytes.length > 3584) :
    (s.apply op font).run = s.run ∧ (s.apply op font).fault = s.fault := by
  cases op with
  | step inp => simp only [State.apply, stepWith_of_not_running hrun, State.supply_run, State.supply_fault, and_self]
  | stepBatch maxSteps inputs => simp only [State.apply, stepBatch_of_not_running hrun, and_self]
  | tickTimers => simp only [State.apply, tickTimers_of_not_running hrun, and_self]
  | loadProgram bytes => simp only [State.apply, State.loadProgram_rejected s bytes font (hload bytes rfl), and_self]
  | clearDirty => exact ⟨rfl, rfl⟩
  | writeKeys keys => exact ⟨rfl, rfl⟩

/-- A host run without a successful load keeps a halted core halted on the same fault, by induction on its operations. -/
theorem applyAll_run_and_fault_of_halted (hhalt : s.run = .halted) (font : Font) (ops : List HostOp)
    (hload : ∀ bytes, HostOp.loadProgram bytes ∈ ops → bytes.length > 3584) :
    (s.applyAll ops font).run = .halted ∧ (s.applyAll ops font).fault = s.fault := by
  induction ops generalizing s with
  | nil => exact ⟨hhalt, rfl⟩
  | cons op ops ih =>
    obtain ⟨hrun, hfault⟩ := apply_run_and_fault_of_not_running (s := s) (by simp [hhalt]) font (op := op)
      fun bytes hop => hload bytes (hop ▸ List.mem_cons_self)
    rw [← hfault]
    exact ih (hrun.trans hhalt) fun bytes hmem => hload bytes (List.mem_cons_of_mem _ hmem)

end

/-- Settles O24: no operation but a successful load touches the run state or the record of a halted core. -/
theorem haltedUntilLoad : Obligations.HaltedUntilLoad := by
  intro s font hhalt
  have hrun : s.run ≠ .running := by simp [hhalt]
  refine ⟨applyAll_run_and_fault_of_halted hhalt font, stepResult_of_not_running hrun, step_of_not_running hrun,
    tickTimers_of_not_running hrun, fun bytes hb => ?_⟩
  rw [State.apply, State.loadProgram_loaded s bytes font hb]
  rfl

/-! ## The dirty flag (R333) -/

section
variable {s t : State}

theorem effect_dirty_of_dirty (i : Instr) (hd : s.dirty = true) : (effect i s).dirty = true := by
  by_cases hkeep : (effect i s).dirty = s.dirty
  · exact hkeep.trans hd
  · exact (drawing_of_display_ne (.inr hkeep)).1

theorem exec_dirty_of_dirty {i : Instr} (h : exec i s = .next t) (hd : s.dirty = true) : t.dirty = true := by
  cases exec_cases h with
  | fault => exact hd
  | waits => exact hd
  | done => exact effect_dirty_of_dirty i hd

theorem step_dirty_of_dirty (h : step s = .next t) (hd : s.dirty = true) : t.dirty = true := by
  obtain ⟨-, rfl⟩ | ⟨-, -, rfl⟩ | ⟨-, -, -, rfl⟩ | ⟨-, -, i, -, he⟩ := step_cases h
  · exact hd
  · exact hd
  · exact hd
  · exact exec_dirty_of_dirty he hd

theorem stepWith_dirty_of_dirty (inp : StepInput) (hd : s.dirty = true) : (s.stepWith inp).1.dirty = true := by
  obtain ⟨t, ht⟩ := step_exists_next (s.supply inp)
  rw [State.stepWith, ht]
  exact step_dirty_of_dirty ht hd

/-- What every step with its inputs keeps, a batch keeps, by induction on the steps left (R140). -/
theorem batchFrom_keeps {P : State → Prop} (hstep : ∀ s inp, P s → P (s.stepWith inp).1) (inputs : Nat → StepInput)
    (fuel count : Nat) (hs : P s) : P (batchFrom inputs fuel count s).1 := by
  induction fuel generalizing count s with
  | zero => exact hs
  | succ fuel ih =>
    have hnext : P (s.stepWith (inputs count)).1 := hstep s _ hs
    rw [batchFrom_succ]
    split
    · split
      · exact ih _ hnext
      · exact hnext
    · exact hs

theorem tickTimers_dirty (s : State) : s.tickTimers.1.dirty = s.dirty := by
  rw [State.tickTimers]
  split <;> rfl

theorem loadProgram_dirty_of_dirty (bytes : List Byte) (font : Font) (hd : s.dirty = true) :
    (s.loadProgram bytes font).1.dirty = true := by
  by_cases hb : bytes.length ≤ 3584
  · rw [State.loadProgram_loaded s bytes font hb]
    rfl
  · rw [State.loadProgram_rejected s bytes font (not_le.mp hb)]
    exact hd

end

/-- Settles O26, operation by operation: a draw sets the flag, and so does a load; the others leave it. -/
theorem onlyClearDirtyClears : Obligations.OnlyClearDirtyClears := by
  refine fun s font => ⟨rfl, fun op hop hd => ?_⟩
  cases op with
  | step inp => exact stepWith_dirty_of_dirty inp hd
  | stepBatch maxSteps inputs =>
    exact batchFrom_keeps (P := fun s => s.dirty = true) (fun _ inp => stepWith_dirty_of_dirty inp) inputs maxSteps 0 hd
  | tickTimers => exact (tickTimers_dirty s).trans hd
  | loadProgram bytes => exact loadProgram_dirty_of_dirty bytes font hd
  | clearDirty => exact absurd rfl hop
  | writeKeys keys => exact hd

/-! ## The timers (R320) -/

theorem tickTimers_of_running {s : State} (hrun : s.run = .running) :
    s.tickTimers = ({ s with dt := countDown s.dt, st := countDown s.st }, s.st == 1) := if_pos hrun

/-- The truncated subtraction stops at zero as the timer does. -/
theorem countDown_toNat (b : Byte) : (countDown b).toNat = b.toNat - 1 := by
  rw [countDown]
  split
  case isTrue hb => rw [hb]; rfl
  case isFalse hb => bv_omega

/-- A timer reaches zero by counting down from one (R321). -/
theorem beq_one_iff_countDown_reaches_zero (b : Byte) : (b == 1) = true ↔ b.toNat > 0 ∧ (countDown b).toNat = 0 := by
  have hone : b = 1 ↔ b.toNat = 1 := BitVec.toNat_inj.symm
  rw [beq_iff_eq, hone, countDown_toNat]
  omega

/-- Settles O25: both timers count down by the same rule, and the tone is ST reaching zero by it. -/
theorem tickCountsTheTimersDown : Obligations.TickCountsTheTimersDown := fun s =>
  ⟨tickTimers_of_not_running, fun hrun => ⟨_, _, _, tickTimers_of_running hrun, countDown_toNat s.dt, countDown_toNat s.st,
    beq_one_iff_countDown_reaches_zero s.st⟩⟩

end Sys2Proof.Machine

namespace Sys2Proof.Machine

/-! ## Load and power-on (R350, R351, R353, R354) -/

theorem State.reset_v_getElem (r : Reg) : State.reset.v[r] = 0 := Vector.getElem_replicate r.isLt

/-- Two loads of one program differ in the environment's fields only (R353). -/
theorem State.loadProgram_eq_of_other_state (s s' : State) (bytes : List Byte) (font : Font) (hb : bytes.length ≤ 3584) :
    (s.loadProgram bytes font).1 =
      { (s'.loadProgram bytes font).1 with keys := s.keys, draws := s.draws, drawCount := s.drawCount } := by
  rw [State.loadProgram_loaded s bytes font hb, State.loadProgram_loaded s' bytes font hb]

/-- Settles O20: a load that fits is the reset state over the loaded memory and the old keys; reset's fields are those of
R52's load column. -/
theorem loadSetsEveryField : Obligations.LoadSetsEveryField := fun s bytes font =>
  ⟨State.loadProgram_rejected s bytes font, fun hb =>
    ⟨_, State.loadProgram_loaded s bytes font hb, fun a _ => loadedMemory_read font bytes a, State.reset_v_getElem,
      rfl, rfl, rfl, rfl, rfl, fun px py _ _ => pixel_blankScreen px py, rfl, rfl, rfl, rfl⟩⟩

/-- Settles O21: the loaded state is built from reset, not from the prior state. -/
theorem loadIgnoresThePriorState : Obligations.LoadIgnoresThePriorState := by
  intro s s' bytes font hb
  refine ⟨State.loadProgram_eq_of_other_state s s' bytes font hb, ?_⟩
  rw [State.loadProgram_loaded s bytes font hb]
  exact ⟨rfl, rfl, rfl, State.reset_v_getElem, rfl, rfl⟩

/-- Settles O23: a power-on core is not running. -/
theorem powerOnCoreDoesNothing : Obligations.PowerOnCoreDoesNothing := by
  rintro s ⟨hnoProgram, -⟩
  have hrun : s.run ≠ .running := by simp [hnoProgram]
  exact ⟨step_of_not_running hrun, stepResult_of_not_running hrun, tickTimers_of_not_running hrun⟩

end Sys2Proof.Machine
